-- ==== Sys2Proof/Word.lean ====
section
/-! DEFINITION. The block's word types (00_scope.md R5, R8; 30_encoding.md R50, R51, R53) and the
presented command: the 68-bit word and the byte sequence the host hands over with it. -/

namespace Sys2Proof

/-- Half a byte (00_scope.md R5). -/
abbrev Nibble := BitVec 4

/-- One byte of a stream. -/
abbrev Byte := BitVec 8

/-- A Quantized Sample, uint12: all 4096 patterns are codes (30_encoding.md R50). -/
abbrev Code := BitVec 12

/-- A Sample: a binary64 word (30_encoding.md R51). -/
abbrev Sample := BitVec 64

/-- The command word: `op` in bits 67..64, `payload` in bits 63..0 (30_encoding.md R53). -/
abbrev CommandWord := BitVec 68

/-- What the host presents for one command (30_encoding.md R53): the command word, and the byte
sequence that only a U.START word comes with (the empty list for every other command). -/
structure Command where
  word  : CommandWord
  bytes : List Byte
  deriving DecidableEq, Repr

end Sys2Proof
end

