-- ==== Sys2Proof/Config.lean ====
section
/-! DEFINITION. What this hardware fixes when it is built (00_scope.md R4). The remaining
parameters of R4 are no numbers: `FMT`, `RM` are Machine/Float64.lean, `RANGE_POLICY`, `NAN_POLICY`
are Machine/Quantizer.lean, `NIBBLE_ORDER` is Machine/Ops.lean, `STRICT_LEN` is Machine/Flags.lean. -/

namespace Sys2Proof.Config

/-- `QW`: the width of a code (R4, source). -/
def qw : Nat := 12

/-- How many nibbles one code has (20_memory.md R33). -/
def codeNibbles : Nat := qw / 4

/-- `SCALE`: the multiplier of both formulas (R4, source). -/
def scale : Nat := 4095

/-- `CW`: the width of the sample counters and of `n` and `len`. R4 gives the hardware 32 and leaves
a model free to take another width. 32 here, unsafe for a block built with another (log 1: DESIGN CHOICE, unsafe). -/
def cw : Nat := 32

/-- `NMAX`: the largest sample count of one stream (R4). -/
def nmax : Nat := 2 ^ cw - 1

end Sys2Proof.Config
end

