-- ==== Sys2Proof/Syntax.lean ====
section
/-! DEFINITION. The seven commands of the opcode table (30_encoding.md R54), one constructor each,
with the operands of their format (R53). -/

namespace Sys2Proof

/-- A command with its operands. `n` and `len` are naturals (00_scope.md R6); that they fit their
`CW`-bit fields, and that `bytes` has `len` elements, is `Instr.wf` (log 12: DEDUCED, safe). -/
inductive Instr where
  /-- QUANT, format F: quantize the binary64 word `f` (40_quantizer.md R71). -/
  | quant (f : Sample)
  /-- DEQUANT, format V: turn the code `v` into a sample (40_quantizer.md R76). -/
  | dequant (v : Code)
  /-- P.INIT, format N: start a new stream (41_packer.md R90). -/
  | pInit
  /-- P.PUSH, format V: append the code `v` (41_packer.md R92). -/
  | pPush (v : Code)
  /-- P.FLUSH, format N: end the stream (41_packer.md R93). -/
  | pFlush
  /-- U.START, format S: take a stream of `len` bytes that holds `n` codes (42_unpacker.md R110). -/
  | uStart (n len : Nat) (bytes : List Byte)
  /-- U.POP, format N: return the next code (42_unpacker.md R112). -/
  | uPop
  deriving DecidableEq, Repr

/-- The `op` value of each command (30_encoding.md R54). -/
def Instr.opcode : Instr → BitVec 4
  | .quant _ => 0x0
  | .dequant _ => 0x1
  | .pInit => 0x4
  | .pPush _ => 0x5
  | .pFlush => 0x6
  | .uStart _ _ _ => 0x8
  | .uPop => 0x9

end Sys2Proof
end

