-- ==== Sys2Proof/WellFormed.lean ====
section
/-! DEFINITION. Which commands can be presented at all: `n` and `len` are `CW`-bit naturals and the
host presents exactly `len` bytes (30_encoding.md R53, R55). Every other operand is legal (R56). -/

namespace Sys2Proof

/-- The check on a command's operands. -/
def Instr.wf : Instr → Bool
  | .quant _ => true
  | .dequant _ => true
  | .pInit => true
  | .pPush _ => true
  | .pFlush => true
  | .uStart n len bytes =>
    decide (n < 2 ^ Config.cw) && decide (len < 2 ^ Config.cw) && decide (bytes.length = len)
  | .uPop => true

/-- `i` can be presented on the command interface. -/
abbrev Instr.WellFormed (i : Instr) : Prop := i.wf = true

end Sys2Proof
end

