-- ==== Sys2Proof/Decode.lean ====
section
/-! DEFINITION. The decoder and the encoder of the command word (30_encoding.md R53 to R56, R60). -/

namespace Sys2Proof

/-- Why a presented command selects no instruction. -/
inductive DecodeError where
  /-- `op` is one of the reserved values (30_encoding.md R56). -/
  | reservedOp (op : BitVec 4)
  /-- A U.START word whose `len` differs from the number of bytes presented with it: R53 gives the
  host no such move (log 6: DESIGN CHOICE, safe). -/
  | byteCountMismatch (len presented : Nat)
  deriving DecidableEq, Repr

/-- `op = cmd[67:64]` (R53). -/
def Command.op (c : Command) : BitVec 4 := c.word.extractLsb' 64 4

/-- `payload = cmd[63:0]` (R53): the operand of format F. -/
def Command.payload (c : Command) : BitVec 64 := c.word.extractLsb' 0 64

/-- The operand of format V: `payload[11:0]` (R53, R55). -/
def Command.codeField (c : Command) : Code := c.word.extractLsb' 0 Config.qw

/-- The field `n = payload[CW-1:0]` of format S (R53). -/
def Command.countField (c : Command) : Nat := (c.word.extractLsb' 0 Config.cw).toNat

/-- The field `len = payload[2*CW-1:CW]` of format S (R53). -/
def Command.lenField (c : Command) : Nat := (c.word.extractLsb' Config.cw Config.cw).toNat

/-- Format S: the two fields and the bytes presented with the word (R53). -/
def decodeStart (c : Command) : Except DecodeError Instr :=
  if c.bytes.length = c.lenField then .ok (.uStart c.countField c.lenField c.bytes)
  else .error (.byteCountMismatch c.lenField c.bytes.length)

/-- Decode from `op` alone (R54, R60); the payload bits a format does not use are ignored (R55), and
the bytes presented with the word are looked at by format S alone (log 14: DEDUCED, safe). -/
def decode (c : Command) : Except DecodeError Instr :=
  match c.op.toNat with
  | 0x0 => .ok (.quant c.payload)
  | 0x1 => .ok (.dequant c.codeField)
  | 0x4 => .ok .pInit
  | 0x5 => .ok (.pPush c.codeField)
  | 0x6 => .ok .pFlush
  | 0x8 => decodeStart c
  | 0x9 => .ok .uPop
  | _ => .error (.reservedOp c.op)

/-- A command word from its two fields, `op:payload` (R53, R58). -/
def commandWord (op : BitVec 4) (payload : BitVec 64) : CommandWord := op ++ payload

/-- The payload of each command; the bits a format does not use are 0 (R53; log 19: DESIGN
CHOICE, safe). -/
def Instr.payload : Instr → BitVec 64
  | .quant f => f
  | .dequant v => v.setWidth 64
  | .pInit => 0
  | .pPush v => v.setWidth 64
  | .pFlush => 0
  | .uStart n len _ => BitVec.ofNat 64 (len % 2 ^ Config.cw * 2 ^ Config.cw + n % 2 ^ Config.cw)
  | .uPop => 0

/-- The byte sequence presented with each command (R53). -/
def Instr.presented : Instr → List Byte
  | .quant _ => []
  | .dequant _ => []
  | .pInit => []
  | .pPush _ => []
  | .pFlush => []
  | .uStart _ _ bytes => bytes
  | .uPop => []

/-- The command the host presents for `i` (R53, R54). -/
def encode (i : Instr) : Command := ⟨commandWord i.opcode i.payload, i.presented⟩

/-- A word numbered as the opcode table numbers it, as a presented command: its low `nbits` bits in
the 68-bit word, every bit above them 0, and, for a U.START word, `len` zero bytes presented with
it. -/
def tableCommand (nbits w : Nat) : Command :=
  let word : CommandWord := BitVec.ofNat 68 (w % 2 ^ nbits)
  let c : Command := ⟨word, []⟩
  if c.op = 0x8 then ⟨word, List.replicate c.lenField 0⟩ else c

/-- The instruction the decoder reads from a word of the opcode table; none where it refuses. -/
def decodeTableWord (nbits w : Nat) : Option Instr :=
  match decode (tableCommand nbits w) with
  | .ok i => some i
  | .error _ => none

end Sys2Proof
end

