-- ==== Sys2Proof/Machine/State.lean ====
section
/-! DEFINITION. The state of the block (10_state.md R12 to R20), what the host has presented and
received, and the state after reset (R25). Unit Q has no state (R11). -/

namespace Sys2Proof.Machine

/-- The two values `P.FREE` has at a command boundary (10_state.md R13, R24; log 7: DEDUCED,
safe). -/
inductive Fill where
  /-- State E, byte-boundary-empty: 8 bits free. -/
  | empty
  /-- State H, half-byte-filled: 4 bits free. -/
  | half
  deriving DecidableEq, Repr

/-- The state of unit P. -/
structure Packer where
  /-- `P.CUR`, the byte being filled (R12). -/
  cur : Byte
  /-- `P.FREE`, the cursor (R13). -/
  free : Fill
  /-- `P.OPEN` (R14). -/
  isOpen : Bool
  /-- `P.CNT`, the codes pushed since P.INIT or reset (R15). -/
  cnt : Nat
  /-- `P.OUT`, the bytes emitted since P.INIT or reset (R16). -/
  out : List Byte
  deriving DecidableEq, Repr

/-- The state of unit U. -/
structure Unpacker where
  /-- `U.SRC`, the captured input stream (R18). -/
  src : List Byte
  /-- `U.LEN`, its length (R18). -/
  len : Nat
  /-- `U.NIB`, the nibble cursor (R19). -/
  nib : Nat
  /-- `U.REM`, the codes still to be returned (R20). -/
  rem : Nat
  deriving DecidableEq, Repr

/-- The three errors (60_exceptions.md R130). -/
inductive Err where
  | rangeError
  | lengthError
  | configError
  deriving DecidableEq, Repr

/-- The response to one command (30_encoding.md R57): OK with its 64-bit result (0 where the command
has none), or an error alone, which carries no result (log 5: DEDUCED, safe). -/
inductive Response where
  | ok (result : BitVec 64)
  | error (e : Err)
  deriving DecidableEq, Repr

/-- What the host can do to the block (70_reset_and_hazards.md R150): reset it at a command
boundary, or present a command. -/
inductive HostEvent where
  | reset
  | command (c : Command)
  deriving DecidableEq, Repr

/-- The whole state of one instance (log 17: DEDUCED, safe). `inputs` and `responses` are the model's own: they hold the host's side of the
command interface (log 2: DEDUCED, safe, log 4: DESIGN CHOICE, safe). -/
structure State where
  /-- Unit P. -/
  p : Packer
  /-- Unit U. -/
  u : Unpacker
  /-- What the host has presented and the block has not served yet, oldest first. -/
  inputs : List HostEvent
  /-- The responses given so far, oldest first. -/
  responses : List Response
  deriving DecidableEq, Repr

/-- What stops the machine. -/
inductive Fault where
  /-- U.POP would read a byte outside `U.SRC`. Raised by U.POP only, and only in a state that breaks
  the invariant R26 (f), (g): no run reaches one (42_unpacker.md R111). Safe (log 9: DESIGN CHOICE). -/
  | streamBounds
  deriving DecidableEq, Repr

/-- What the machine gives no meaning to. -/
inductive Refusal where
  /-- A command without a meaning yet; no arm of `exec` raises it. Safe. -/
  | notModelled (mnemonic : String)
  /-- The host presents with a U.START word a byte sequence whose length is not the word's `len`, a
  move 30_encoding.md R53 does not give it. Raised by the step before any instruction runs. Safe (log 6: DESIGN CHOICE). -/
  | byteCountMismatch
  deriving DecidableEq, Repr

/-- Unit P after reset (R25). -/
def Packer.reset : Packer := { cur := 0x00, free := .empty, isOpen := true, cnt := 0, out := [] }

/-- Unit U after reset (R25). -/
def Unpacker.reset : Unpacker := { src := [], len := 0, nib := 0, rem := 0 }

/-- The machine right after reset: both units as R25 says; nothing presented and nothing answered yet
(log 18: DESIGN CHOICE, unsafe). -/
def State.reset : State :=
  { p := Packer.reset, u := Unpacker.reset, inputs := [], responses := [] }

end Sys2Proof.Machine
end

