-- ==== Sys2Proof/Machine/Flags.lean ====
section
/-! DEFINITION. The block has no flag (10_state.md R23). What a command computes beside its result is
its status: the checks of each command, in the order of 60_exceptions.md R135. Each answers the error
of the first check that fails. -/

namespace Sys2Proof.Machine

/-- `ceil(3n/2)` on naturals (00_scope.md R5): the bytes a stream of `n` codes has. -/
def streamBytes (n : Nat) : Nat := (3 * n + 1) / 2

/-- The checks of P.PUSH (41_packer.md R92, R99). -/
def Packer.pushCheck (p : Packer) : Option Err :=
  if p.isOpen = false then some .configError
  else if p.cnt = Config.nmax then some .configError
  else none

/-- The check of P.FLUSH (41_packer.md R93, R99). -/
def Packer.flushCheck (p : Packer) : Option Err :=
  if p.isOpen = false then some .configError else none

/-- The checks of U.START (42_unpacker.md R110, R118): the count, then too short, then too long. -/
def startCheck (n len : Nat) : Option Err :=
  if Config.nmax < n then some .configError
  else if len < streamBytes n then some .lengthError
  else if streamBytes n < len then some .configError
  else none

/-- The check of U.POP (42_unpacker.md R112, R118). -/
def Unpacker.popCheck (u : Unpacker) : Option Err :=
  if u.rem = 0 then some .configError else none

end Sys2Proof.Machine
end

