-- ==== Sys2Proof/Machine/Operands.lean ====
section
/-! DEFINITION. The operand forms: which half of which byte a nibble index addresses (20_memory.md
R31), the nibbles of a code (R33), and how a result stands in the response word (30_encoding.md R57).
Every other operand is taken from the command word as it stands (R55, Decode.lean). -/

namespace Sys2Proof.Machine

/-- The byte index of nibble `j` (R31). -/
def nibbleByte (j : Nat) : Nat := j / 2

/-- The half of byte `b` that nibble index `j` selects (R31, R32): even is high, odd is low. -/
def nibbleHalf (b : Byte) (j : Nat) : Nibble :=
  if j % 2 = 0 then b.extractLsb' 4 4 else b.extractLsb' 0 4

/-- `nibble(s, j)` (R31): none when the stream has no such nibble. -/
def nibbleAt (s : List Byte) (j : Nat) : Option Nibble :=
  (s[nibbleByte j]?).map fun b => nibbleHalf b j

/-- A nibble put into the half of a byte that starts at bit `pos`, the rest zero (41_packer.md R91). -/
def nibbleAtBit (x : Nibble) (pos : Nat) : Byte := x.setWidth 8 <<< pos

/-- `(hi << 4) | lo`: the byte of two nibbles, the earlier one high (R32). -/
def byteOf (hi lo : Nibble) : Byte := nibbleAtBit hi 4 ||| nibbleAtBit lo 0

/-- Nibble `k` of a code, `v[4k+3 : 4k]`, for `k = 0, 1, 2` (30_encoding.md R52). -/
def codeNibble (v : Code) (k : Nat) : Nibble := v.extractLsb' (4 * k) 4

/-- The nibbles of a code in stream order, least significant first (R33). -/
def codeNibbles (v : Code) : List Nibble := [codeNibble v 0, codeNibble v 1, codeNibble v 2]

/-- A nibble in place `k` of a code, the rest zero (42_unpacker.md R112). -/
def nibbleInCode (x : Nibble) (k : Nat) : Code := x.setWidth 12 <<< (4 * k)

/-- `N0 | (N1 << 4) | (N2 << 8)` (42_unpacker.md R112). -/
def codeOf (n0 n1 n2 : Nibble) : Code := nibbleInCode n0 0 ||| nibbleInCode n1 1 ||| nibbleInCode n2 2

/-- A code as a result: `result[11:0]`, with `result[63:12] = 0` (30_encoding.md R57). -/
def codeResult (v : Code) : BitVec 64 := v.setWidth 64

/-- The result of a command that has none (30_encoding.md R57). -/
def noResult : BitVec 64 := 0

/-- The bits a cursor value leaves free (10_state.md R13). -/
def Fill.bits : Fill → Nat
  | .empty => 8
  | .half => 4

/-- The status number of a response (30_encoding.md R57). -/
def Response.status : Response → BitVec 2
  | .ok _ => 0
  | .error .rangeError => 1
  | .error .lengthError => 2
  | .error .configError => 3

/-- The result a response carries: none on an error (30_encoding.md R57). -/
def Response.result : Response → Option (BitVec 64)
  | .ok r => some r
  | .error _ => none

end Sys2Proof.Machine
end

