-- ==== Sys2Proof/Machine/Ops.lean ====
section
/-! DEFINITION. The shared operations: the response to a command and the delivery of an error
(60_exceptions.md R136), the reset event (70_reset_and_hazards.md R150), the streams (20_memory.md R30
to R37), and the nibble steps of unit P and unit U. -/

namespace Sys2Proof.Machine

/-! ### Responses and errors -/

/-- The response `r` is given to the host (30_encoding.md R57). -/
def State.respond (s : State) (r : Response) : State := { s with responses := s.responses ++ [r] }

/-- `respond(OK, r)` (00_scope.md R6). -/
def State.done (s : State) (result : BitVec 64) : Host.Outcome State Fault Refusal :=
  .next (s.respond (.ok result))

/-- `raise e` (60_exceptions.md R136): the error alone is the response and no state element of the
block changes; nothing is saved and control goes nowhere, so there is no return (R137). -/
def State.raise (s : State) (e : Err) : Host.Outcome State Fault Refusal :=
  .next (s.respond (.error e))

/-- What a command that selects no instruction does: a reserved `op` is answered with ConfigError
(30_encoding.md R56); a byte sequence of the wrong length is a move the host does not have (log 6: DESIGN CHOICE, safe). -/
def State.reject (s : State) : DecodeError → Host.Outcome State Fault Refusal
  | .reservedOp _ => s.raise .configError
  | .byteCountMismatch _ _ => .refused .byteCountMismatch

/-- The reset event (70_reset_and_hazards.md R150): all three units at their reset values (Q has
none). What the host still presents and the responses it already has are not the block's state (log 16: DEDUCED, safe). -/
def State.applyReset (s : State) : State := { s with p := Packer.reset, u := Unpacker.reset }

/-! ### Streams as memory -/

/-- `MemRead(s, k, 1)` of a stream of which `len` bytes exist (00_scope.md R6): none outside it. -/
def Memory.read (s : List Byte) (len k : Nat) : Option Byte := if k < len then s[k]? else none

/-- A stream as (address, byte) pairs, its first byte at address `a`. -/
def Memory.cellsFrom (a : Nat) : List Byte → List Host.Cell
  | [] => []
  | b :: bs => (a, b) :: Memory.cellsFrom (a + 1) bs

/-- A stream as (address, byte) pairs: byte `k` at address `k`, nothing beyond its end (log 15: DEDUCED, safe). -/
def Memory.cells (s : List Byte) : List Host.Cell := Memory.cellsFrom 0 s

/-- The addresses of the pairs are `a`, `a + 1`, … without a gap. -/
def Memory.wfFrom (a : Nat) : List Host.Cell → Bool
  | [] => true
  | c :: cs => decide (c.1 = a) && Memory.wfFrom (a + 1) cs

/-- The canonical form of such pairs: addresses rising from 0 without a gap. An address that is not
listed does not exist, so no entry equals what an unlisted address reads as. -/
def Memory.wf (m : List Host.Cell) : Bool := Memory.wfFrom 0 m

/-! ### Unit P -/

/-- `Emit(b)`: append one byte to `P.OUT` (00_scope.md R6). -/
def Packer.emit (p : Packer) (b : Byte) : Packer := { p with out := p.out ++ [b] }

/-- PutNibble (41_packer.md R91). `P.FREE` passes through 0 between filling the low half and its reset
to 8; that 0 is the case of state H here. -/
def Packer.putNibble (x : Nibble) (p : Packer) : Packer :=
  let cur := p.cur ||| nibbleAtBit x (p.free.bits - 4)
  match p.free with
  | .empty => { p with cur := cur, free := .half }
  | .half => { p.emit cur with cur := 0x00, free := .empty }

/-- The loop of P.PUSH (41_packer.md R92) with `VBITS = 4 * k` bits of `VAL` left (10_state.md R17;
log 8: DEDUCED, safe). -/
def Packer.pushLoop : (k : Nat) → (val : Code) → Packer → Packer
  | 0, _, p => p
  | k + 1, val, p => Packer.pushLoop k (val >>> 4) (p.putNibble (val.extractLsb' 0 4))

/-- What an accepted P.PUSH does to unit P (41_packer.md R92). -/
def Packer.push (v : Code) (p : Packer) : Packer :=
  let p' := Packer.pushLoop Config.codeNibbles v p
  { p' with cnt := p'.cnt + 1 }

/-- The emission of P.FLUSH (41_packer.md R93): a half-filled byte leaves with a zero low half. -/
def Packer.finish (p : Packer) : Packer :=
  match p.free with
  | .empty => p
  | .half => { p.emit p.cur with cur := 0x00, free := .empty }

/-- What an accepted P.FLUSH does to unit P (41_packer.md R93). -/
def Packer.flush (p : Packer) : Packer := { p.finish with isOpen := false }

/-- What P.INIT does to unit P (41_packer.md R90). -/
def Packer.init (p : Packer) : Packer :=
  { p with cur := 0x00, free := .empty, cnt := 0, out := [], isOpen := true }

/-! ### Unit U -/

/-- GetNibble (42_unpacker.md R111): none when the byte does not exist (log 9: DESIGN CHOICE, safe). -/
def Unpacker.getNibble (u : Unpacker) : Option (Nibble × Unpacker) :=
  match Memory.read u.src u.len (nibbleByte u.nib) with
  | none => none
  | some b => some (nibbleHalf b u.nib, { u with nib := u.nib + 1 })

/-- The loop of U.POP (42_unpacker.md R112) over the places `k` still to be read, with `ACC` so far
(10_state.md R21; log 8: DEDUCED, safe). -/
def Unpacker.popLoop : (ks : List Nat) → (acc : Code) → Unpacker → Option (Code × Unpacker)
  | [], acc, u => some (acc, u)
  | k :: ks, acc, u =>
    match u.getNibble with
    | none => none
    | some (x, u') => Unpacker.popLoop ks (acc ||| nibbleInCode x k) u'

/-- What an accepted U.POP returns and does to unit U (42_unpacker.md R112). -/
def Unpacker.pop (u : Unpacker) : Option (Code × Unpacker) :=
  match Unpacker.popLoop (List.range Config.codeNibbles) 0x000 u with
  | none => none
  | some (acc, u') => some (acc, { u' with rem := u'.rem - 1 })

/-- What an accepted U.START does to unit U (42_unpacker.md R110). -/
def Unpacker.start (n len : Nat) (bytes : List Byte) (u : Unpacker) : Unpacker :=
  { u with src := bytes, len := len, nib := 0, rem := n }

end Sys2Proof.Machine
end

