-- ==== Sys2Proof/Machine/BitPacker.lean ====
section
/-! DEFINITION. Unit P: P.INIT, P.PUSH, P.FLUSH (41_packer.md). Every check precedes every write
(60_exceptions.md R136). -/

namespace Sys2Proof.Machine

/-- P.INIT (R90): accepted in every state; a stream in progress is discarded. -/
def execPInit (s : State) : Host.Outcome State Fault Refusal :=
  State.done { s with p := s.p.init } noResult

/-- P.PUSH (R92). -/
def execPPush (v : Code) (s : State) : Host.Outcome State Fault Refusal :=
  match s.p.pushCheck with
  | some e => s.raise e
  | none => State.done { s with p := s.p.push v } noResult

/-- P.FLUSH (R93). -/
def execPFlush (s : State) : Host.Outcome State Fault Refusal :=
  match s.p.flushCheck with
  | some e => s.raise e
  | none => State.done { s with p := s.p.flush } noResult

end Sys2Proof.Machine
end

