-- ==== Sys2Proof/Machine/BitUnpacker.lean ====
section
/-! DEFINITION. Unit U: U.START, U.POP (42_unpacker.md). Every check precedes every write
(60_exceptions.md R136). -/

namespace Sys2Proof.Machine

/-- U.START (R110): the checks, then the capture of the byte sequence; a stream in progress is
abandoned. -/
def execUStart (n len : Nat) (bytes : List Byte) (s : State) : Host.Outcome State Fault Refusal :=
  match startCheck n len with
  | some e => s.raise e
  | none => State.done { s with u := s.u.start n len bytes } noResult

/-- U.POP (R112): faults only where unit U holds fewer bytes than its cursor needs (log 9: DESIGN CHOICE, safe). -/
def execUPop (s : State) : Host.Outcome State Fault Refusal :=
  match s.u.popCheck with
  | some e => s.raise e
  | none =>
    match s.u.pop with
    | none => .fault .streamBounds
    | some (v, u') => State.done { s with u := u' } (codeResult v)

end Sys2Proof.Machine
end

