-- ==== Sys2Proof/Machine/Float64.lean ====
section
/-! DEFINITION. The binary64 arithmetic of QUANT and DEQUANT (30_encoding.md R51; 40_quantizer.md
R70). Every finite binary64 value is a whole number of units of 2^-1074, so a magnitude is a natural
number of those units and every operation is exact on naturals before it is rounded (log 10: DEDUCED, unsafe). -/

namespace Sys2Proof.Machine

/-- A finite binary64 value: sign, and magnitude in units of 2^-1074. -/
structure FinVal where
  neg : Bool
  mag : Nat
  deriving DecidableEq, Repr

/-- An ordered binary64 datum: everything but a NaN (40_quantizer.md R72). -/
inductive F64 where
  | inf (neg : Bool)
  | fin (x : FinVal)
  deriving DecidableEq, Repr

/-- `2 ^ n`, with every exponent small enough that Lean evaluates it at once (`pow2_eq` of Laws/Float64.lean). -/
def pow2 (n : Nat) : Nat := (2 ^ 256) ^ (n / 256) * 2 ^ (n % 256)

/-- The digits of `floor(log2 m)` from the one worth `2 ^ (j - 1)` down, for `m < 2 ^ (2 ^ j)`. -/
def log2Digits : (j : Nat) → (m : Nat) → Nat
  | 0, _ => 0
  | j + 1, m =>
    if pow2 (2 ^ j) ≤ m then 2 ^ j + log2Digits j (m / pow2 (2 ^ j)) else log2Digits j m

/-- `floor(log2 m)`, 0 for 0: `Nat.log2` in a form that Lean evaluates in few steps on every number
that binary64 arithmetic meets (`floorLog2_eq` of Laws/Float64.lean). -/
def floorLog2 (m : Nat) : Nat := if m < pow2 4096 then log2Digits 12 m else m.log2

/-- How many units 1.0 is. -/
def F64.one : Nat := pow2 1074

/-- The constant 2.0 of the formulas. -/
def F64.two : FinVal := ⟨false, pow2 1075⟩

/-- The constant 0.5 of the formulas. -/
def F64.half : FinVal := ⟨false, pow2 1073⟩

/-- The binary64 value of the natural `v` (exact for the naturals used: codes and 4095.0). -/
def F64.ofNat (v : Nat) : FinVal := ⟨false, v * F64.one⟩

/-- The value of a 64-bit word by the table of R51; none for every NaN pattern. -/
def F64.ofWord (w : Sample) : Option F64 :=
  let s := w.msb
  let e := (w.extractLsb' 52 11).toNat
  let t := (w.extractLsb' 0 52).toNat
  if e = 2047 then (if t = 0 then some (.inf s) else none)
  else if e = 0 then some (.fin ⟨s, t⟩)
  else some (.fin ⟨s, (pow2 52 + t) * pow2 (e - 1)⟩)

/-- The word with sign `s`, biased exponent `e` and fraction `t` (R51). -/
def F64.packWord (s : Bool) (e t : Nat) : Sample :=
  BitVec.ofBool s ++ BitVec.ofNat 11 e ++ BitVec.ofNat 52 t

/-- The word of a datum by the table of R51. -/
def F64.toWord : F64 → Sample
  | .inf s => F64.packWord s 2047 0
  | .fin ⟨s, m⟩ =>
    if m < pow2 52 then F64.packWord s 0 m
    else
      let k := floorLog2 m - 52
      F64.packWord s (k + 1) (m / pow2 k - pow2 52)

/-- `a / b` rounded to the nearest natural, ties to the even one. -/
def roundHalfEven (a b : Nat) : Nat :=
  let q := a / b
  let r := a % b
  if 2 * r < b then q
  else if b < 2 * r then q + 1
  else if q % 2 = 0 then q else q + 1

/-- The magnitude nearest to `a / b` units that has at most 53 significant bits, ties to the even
one: below 2^53 units every natural is a magnitude (gradual underflow), above it the spacing doubles
with every binade. -/
def roundMag (a b : Nat) : Nat :=
  let k := floorLog2 (a / b) - 52
  roundHalfEven a (b * pow2 k) * pow2 k

/-- `RNE64` (R70) of the real of sign `neg` and magnitude `a / b` units: 2^1024, that is 2^2098
units, and everything that rounds to it is infinity. -/
def rne64 (neg : Bool) (a b : Nat) : F64 :=
  let m := roundMag a b
  if pow2 2098 ≤ m then .inf neg else .fin ⟨neg, m⟩

/-- `fdiv(a, b) = RNE64(a / b)`; an infinite `a` as R70 says for `b = 2` (log 11: PRESUMED, safe). -/
def fdiv : F64 → FinVal → F64
  | .inf s, b => .inf (s ^^ b.neg)
  | .fin a, b => rne64 (a.neg ^^ b.neg) (a.mag * F64.one) b.mag

/-- `fmul(a, b) = RNE64(a * b)`; an infinite `a` as R70 says for `b = 4095` (log 11: PRESUMED, safe). -/
def fmul : F64 → FinVal → F64
  | .inf s, b => .inf (s ^^ b.neg)
  | .fin a, b => rne64 (a.neg ^^ b.neg) (a.mag * b.mag) F64.one

/-- `fadd(a, b) = RNE64(a + b)`; the exact sum of two non-zero values of opposite sign that is zero
gives +0.0 (R70); an infinite `a` as R70 says for `b = 0.5` (log 11: PRESUMED, safe). -/
def fadd : F64 → FinVal → F64
  | .inf s, _ => .inf s
  | .fin a, b =>
    if a.neg = b.neg then rne64 a.neg (a.mag + b.mag) 1
    else if b.mag < a.mag then rne64 a.neg (a.mag - b.mag) 1
    else if a.mag < b.mag then rne64 b.neg (b.mag - a.mag) 1
    else .fin ⟨false, 0⟩

/-- `fsub(a, b) = RNE64(a - b)` (R70). -/
def fsub (a : F64) (b : FinVal) : F64 := fadd a ⟨!b.neg, b.mag⟩

/-- The value of a finite datum in units of 2^-1074; both zeros are 0. -/
def FinVal.val (x : FinVal) : Int := if x.neg then -(x.mag : Int) else x.mag

/-- The order of the ordered data (R72, R75): -infinity below, +infinity above every finite value. -/
def F64.le : F64 → F64 → Bool
  | .inf true, _ => true
  | _, .inf false => true
  | .inf false, _ => false
  | _, .inf true => false
  | .fin a, .fin b => decide (a.val ≤ b.val)

/-- Strictly below, in that order. -/
def F64.lt (a b : F64) : Bool := !(F64.le b a)

end Sys2Proof.Machine
end

