-- ==== Sys2Proof/Machine/Quantizer.lean ====
section
/-! DEFINITION. Unit Q: QUANT and DEQUANT (40_quantizer.md). Neither reads or writes a state element of
the block (10_state.md R11). -/

namespace Sys2Proof.Machine

/-- `t3 = ((f / 2) + 0.5) * 4095`, three operations each rounded separately (R71). -/
def quantT3 (x : F64) : F64 := fmul (fadd (fdiv x F64.two) F64.half) (F64.ofNat Config.scale)

/-- The clamp and the floor of R71, R72: 0 when `t3 < 0`, 4095 when `t3 >= 4095`, else `floor(t3)`;
-0.0 is not below 0. -/
def quantClamp : F64 → Code
  | .inf true => 0
  | .inf false => BitVec.ofNat 12 Config.scale
  | .fin x =>
    if x.neg = true ∧ x.mag ≠ 0 then 0
    else if Config.scale * F64.one ≤ x.mag then BitVec.ofNat 12 Config.scale
    else BitVec.ofNat 12 (x.mag / F64.one)

/-- The code of an ordered operand (R71, R72). -/
def quantOrdered (x : F64) : Code := quantClamp (quantT3 x)

/-- The code of a binary64 word: none for a NaN (R73). -/
def quantize (f : Sample) : Option Code := (F64.ofWord f).map quantOrdered

/-- `u3 = (v / 4095 - 0.5) * 2`, three operations each rounded separately (R76). -/
def dequantU3 (v : Code) : F64 :=
  fmul (fsub (fdiv (.fin (F64.ofNat v.toNat)) (F64.ofNat Config.scale)) F64.half) F64.two

/-- The sample of a code (R76). -/
def dequantize (v : Code) : Sample := (dequantU3 v).toWord

/-- QUANT (R71 to R73). -/
def execQuant (f : Sample) (s : State) : Host.Outcome State Fault Refusal :=
  match quantize f with
  | none => s.raise .rangeError
  | some q => s.done (codeResult q)

/-- DEQUANT (R76). -/
def execDequant (v : Code) (s : State) : Host.Outcome State Fault Refusal := s.done (dequantize v)

end Sys2Proof.Machine
end

