-- ==== Sys2Proof/Machine/Dispatch.lean ====
section
/-! DEFINITION. One arm per command (30_encoding.md R54). -/

namespace Sys2Proof.Machine

def exec (i : Instr) (s : State) : Host.Outcome State Fault Refusal :=
  match i with
  | .quant f => Sys2Proof.Machine.execQuant f s
  | .dequant v => Sys2Proof.Machine.execDequant v s
  | .pInit => Sys2Proof.Machine.execPInit s
  | .pPush v => Sys2Proof.Machine.execPPush v s
  | .pFlush => Sys2Proof.Machine.execPFlush s
  | .uStart n len bytes => Sys2Proof.Machine.execUStart n len bytes s
  | .uPop => Sys2Proof.Machine.execUPop s

end Sys2Proof.Machine
end

