-- ==== Sys2Proof/Machine/Serve.lean ====
section
/-! DEFINITION. What one step does with the host's next event (20_memory.md R38, R40;
70_reset_and_hazards.md R150). -/

namespace Sys2Proof.Machine

/-- Serve a presented command: decode its word and run the instruction, or reject the word. -/
def serveCommand (c : Command) (s : State) : Host.Outcome State Fault Refusal :=
  match decode c with
  | .ok i => exec i s
  | .error e => s.reject e

/-- Serve one event of the host, already taken from what it presents. -/
def serve (e : HostEvent) (s : State) : Host.Outcome State Fault Refusal :=
  match e with
  | .reset => .next s.applyReset
  | .command c => serveCommand c s

/-- One step: the oldest event not served yet is taken and served; with nothing presented the block
waits (log 2: DEDUCED, safe). -/
def serveNext (s : State) : Host.Outcome State Fault Refusal :=
  match s.inputs with
  | [] => .next s
  | e :: rest => serve e { s with inputs := rest }

/-- The state in which the host presents `c` before everything else it presents. -/
def State.present (s : State) (c : Command) : State := { s with inputs := .command c :: s.inputs }

end Sys2Proof.Machine
end

