-- ==== Sys2Proof/Machine/HostProcedures.lean ====
section
/-! DEFINITION. The whole-stream function `pack` (41_packer.md R94), the closed forms of a stream
(20_memory.md R31, 42_unpacker.md R114), and the host's pseudo-instructions PACK, UNPACK, ENCODE, DECODE
as sequences of commands (30_encoding.md R59). -/

namespace Sys2Proof.Machine

/-- `nibbles(vs)` (41_packer.md R94). -/
def nibblesOf (vs : List Code) : List Nibble := vs.flatMap codeNibbles

/-- `pack(vs)` as the fold of R94: PutNibble over the nibbles from the empty packer, then the emission
of the flush. R94 has at most NMAX codes; the fold goes on beyond (log 22: DESIGN CHOICE, unsafe). -/
def pack (vs : List Code) : List Byte :=
  ((nibblesOf vs).foldl (fun p x => p.putNibble x) Packer.reset).finish.out

/-- `N(j)` of R95: nibble `j mod 3` of code `j div 3`, and the zero pad at `j = 3n`; none beyond. -/
def laneOf (vs : List Code) (j : Nat) : Option Nibble :=
  if j = 3 * vs.length then some 0 else (vs[j / 3]?).map fun v => codeNibble v (j % 3)

/-- Code `i` of a stream (R114); none when the stream has no such nibbles. -/
def codeAt (bytes : List Byte) (i : Nat) : Option Code :=
  match nibbleAt bytes (3 * i), nibbleAt bytes (3 * i + 1), nibbleAt bytes (3 * i + 2) with
  | some n0, some n1, some n2 => some (codeOf n0 n1 n2)
  | _, _, _ => none

/-- The host issues one command and receives its response; none if the machine stops. It runs the meaning
also on operands that no word encodes (log 21: DESIGN CHOICE, unsafe). -/
def issue (i : Instr) (s : State) : Option (Response × State) :=
  match exec i s with
  | .next t => (t.responses.getLast?).map fun r => (r, t)
  | .fault _ => none
  | .refused _ => none

/-- What a host procedure ends with: its result or the error that ended it, and the state then; none
if the machine stops. -/
abbrev HostResult (α : Type) := Option (Except Err α × State)

/-- The host issues commands in order and collects their results, up to the first error, and issues none
after it. R59 says so of UNPACK and of the QUANTs of ENCODE; of the pushes of PACK it is the model's choice
(log 22: DESIGN CHOICE, unsafe). -/
def issueAll : List Instr → State → HostResult (List (BitVec 64))
  | [], s => some (.ok [], s)
  | i :: is, s =>
    match issue i s with
    | none => none
    | some (.error e, t) => some (.error e, t)
    | some (.ok r, t) =>
      match issueAll is t with
      | none => none
      | some (.error e, t') => some (.error e, t')
      | some (.ok rs, t') => some (.ok (r :: rs), t')

/-- Go on with a procedure's result, unless it ended in an error. -/
def HostResult.andThen {α β : Type} (x : HostResult α) (f : α → State → HostResult β) : HostResult β :=
  match x with
  | none => none
  | some (.error e, t) => some (.error e, t)
  | some (.ok a, t) => f a t

/-- The commands of PACK (R59). -/
def packCommands (vs : List Code) : List Instr := .pInit :: (vs.map .pPush ++ [.pFlush])

/-- PACK (R59): the result is `P.OUT` after the flush. Past NMAX codes a P.PUSH is refused: no P.FLUSH
follows and the result is its ConfigError (log 22: DESIGN CHOICE, unsafe). -/
def hostPack (vs : List Code) (s : State) : HostResult (List Byte) :=
  (issueAll (packCommands vs) s).andThen fun _ t => some (.ok t.p.out, t)

/-- The commands of UNPACK (R59). -/
def unpackCommands (bytes : List Byte) (n : Nat) : List Instr :=
  .uStart n bytes.length bytes :: List.replicate n .uPop

/-- The codes in results of commands that return one (30_encoding.md R57). -/
def resultCodes (rs : List (BitVec 64)) : List Code := rs.map fun r => r.setWidth 12

/-- UNPACK (R59): the results of the U.POPs in order; U.START's error if it fails. A sequence of 2^32
bytes or more, whose length no word carries (R53, R18), has the outcome of 42_unpacker.md R113 all the same,
with `U.LEN` past 32 bits (log 21: DESIGN CHOICE, unsafe). -/
def hostUnpack (bytes : List Byte) (n : Nat) (s : State) : HostResult (List Code) :=
  (issueAll (unpackCommands bytes n) s).andThen fun rs t => some (.ok (resultCodes rs.tail), t)

/-- ENCODE (R59): quantize everything, then pack; a failing QUANT leaves nothing pushed. More than NMAX
samples: as PACK (log 22: DESIGN CHOICE, unsafe). -/
def hostEncode (ss : List Sample) (s : State) : HostResult (List Byte) :=
  (issueAll (ss.map .quant) s).andThen fun rs t => hostPack (resultCodes rs) t

/-- DECODE (R59): unpack, then dequantize every code in order. 2^32 bytes or more: as UNPACK (log 21:
DESIGN CHOICE, unsafe). -/
def hostDecode (bytes : List Byte) (n : Nat) (s : State) : HostResult (List Sample) :=
  (hostUnpack bytes n s).andThen fun vs t => issueAll (vs.map .dequant) t

end Sys2Proof.Machine
end

