-- ==== Sys2Proof/Machine/Script.lean ====
section
/-! DEFINITION. The script syntax of a command (30_encoding.md R58): one command a line, mnemonic
first, operands separated by commas, `;` starting a comment, `->` introducing the expected response;
and the notation `op:payload` of an encoding. Texts are lists of characters.
The details that R58 leaves open are the model's (log 20: DESIGN CHOICE, safe). -/

namespace Sys2Proof.Machine

/-! ### Writing -/

/-- The digit of value `d < 16`, capital letters above 9. -/
def digitChar (d : Nat) : Char := if d < 10 then Char.ofNat (48 + d) else Char.ofNat (55 + d)

/-- `k` digits of `n` in the given base, most significant first. -/
def fixedDigits (base k n : Nat) : List Char :=
  ((List.range k).map fun i => digitChar (n / base ^ i % base)).reverse

/-- A natural below 2^32 in decimal, no leading zero. -/
def decimalText (n : Nat) : List Char :=
  match (fixedDigits 10 10 n).dropWhile (· = '0') with
  | [] => ['0']
  | ds => ds

/-- A hexadecimal literal of `k` digits. -/
def hexLiteral (k n : Nat) : List Char := ['0', 'x'] ++ fixedDigits 16 k n

/-- The bytes of a U.START line, two digits each, separated by one space. -/
def bytesText : List Byte → List Char
  | [] => []
  | [b] => fixedDigits 16 2 b.toNat
  | b :: bs => fixedDigits 16 2 b.toNat ++ [' '] ++ bytesText bs

/-- The line of a command (R58); `len` is the number of bytes listed. -/
def lineOf : Instr → List Char
  | .quant f => ['Q', 'U', 'A', 'N', 'T', ' '] ++ hexLiteral 16 f.toNat
  | .dequant v => ['D', 'E', 'Q', 'U', 'A', 'N', 'T', ' '] ++ hexLiteral 3 v.toNat
  | .pInit => ['P', '.', 'I', 'N', 'I', 'T']
  | .pPush v => ['P', '.', 'P', 'U', 'S', 'H', ' '] ++ hexLiteral 3 v.toNat
  | .pFlush => ['P', '.', 'F', 'L', 'U', 'S', 'H']
  | .uStart n _ bytes =>
    ['U', '.', 'S', 'T', 'A', 'R', 'T', ' ', '['] ++ bytesText bytes ++ [']', ',', ' '] ++ decimalText n
  | .uPop => ['U', '.', 'P', 'O', 'P']

/-- The notation `op:payload` of a command word (R58). -/
def encodingText (c : Command) : List Char :=
  fixedDigits 16 1 c.op.toNat ++ [':'] ++ fixedDigits 16 16 c.payload.toNat

/-! ### Reading -/

/-- The value of a digit, either case. -/
def digitValue (c : Char) : Option Nat :=
  let k := c.toNat
  if 48 ≤ k ∧ k ≤ 57 then some (k - 48)
  else if 65 ≤ k ∧ k ≤ 70 then some (k - 55)
  else if 97 ≤ k ∧ k ≤ 102 then some (k - 87)
  else none

/-- Digits after the value `acc`; none if one of them is no digit of the base. -/
def digitsFrom (base : Nat) : (acc : Nat) → List Char → Option Nat
  | acc, [] => some acc
  | acc, c :: cs =>
    match digitValue c with
    | none => none
    | some d => if d < base then digitsFrom base (acc * base + d) cs else none

/-- A number of one digit or more. -/
def number (base : Nat) : List Char → Option Nat
  | [] => none
  | c :: cs => digitsFrom base 0 (c :: cs)

/-- A number of exactly `k` digits. -/
def fixedNumber (base k : Nat) (cs : List Char) : Option Nat :=
  if cs.length = k then number base cs else none

/-- A line without its comment and its expected response. -/
def commandPart : List Char → List Char
  | [] => []
  | ';' :: _ => []
  | '-' :: '>' :: _ => []
  | c :: cs => c :: commandPart cs

/-- Put the word read so far before the tokens that follow it. -/
def endWord (word : List Char) (ts : List (List Char)) : List (List Char) :=
  if word = [] then ts else word :: ts

/-- The words of a line; brackets and commas are words of their own. -/
def tokens : (word : List Char) → List Char → List (List Char)
  | w, [] => endWord w []
  | w, c :: cs =>
    if c = ' ' ∨ c = '\t' then endWord w (tokens [] cs)
    else if c = '[' ∨ c = ']' ∨ c = ',' then endWord w ([c] :: tokens [] cs)
    else tokens (w ++ [c]) cs

/-- A code: `0x` and three digits, or a decimal up to 4095. -/
def readCode : List Char → Option Code
  | '0' :: 'x' :: cs => (fixedNumber 16 3 cs).map (BitVec.ofNat 12)
  | cs =>
    match number 10 cs with
    | none => none
    | some v => if v < 4096 then some (BitVec.ofNat 12 v) else none

/-- The digits before and after the point of a decimal literal. -/
def splitPoint : List Char → List Char × List Char
  | [] => ([], [])
  | '.' :: cs => ([], cs)
  | c :: cs => (c :: (splitPoint cs).1, (splitPoint cs).2)

/-- An unsigned sample literal, with the sign it gets: `inf`, or a decimal, which denotes the binary64
value nearest to it (R58); a tie goes to the even one, from `2^1024 - 2^970` on it is infinity, and a zero keeps
the written sign, as `RNE64` of 40_quantizer.md R70 rounds (log 24: DESIGN CHOICE, unsafe). -/
def readMagnitude (neg : Bool) (cs : List Char) : Option Sample :=
  if cs = ['i', 'n', 'f'] then some (F64.toWord (.inf neg))
  else
    let frac := (splitPoint cs).2
    match number 10 (splitPoint cs).1, digitsFrom 10 0 frac with
    | some a, some b =>
      some (rne64 neg ((a * 10 ^ frac.length + b) * F64.one) (10 ^ frac.length)).toWord
    | _, _ => none

/-- A sample: `0x` and sixteen digits, `nan` (the quiet NaN of 95_test_vectors.md V-E1), or a signed
literal. -/
def readSample : List Char → Option Sample
  | '0' :: 'x' :: cs => (fixedNumber 16 16 cs).map (BitVec.ofNat 64)
  | '-' :: cs => readMagnitude true cs
  | cs => if cs = ['n', 'a', 'n'] then some 0x7FF8000000000000 else readMagnitude false cs

/-- The rest of a U.START line after its opening bracket, with the bytes read so far: two digits each,
up to the closing bracket, then a comma and the count. R58 gives the count and the number of bytes no
range: from 2^32 on, where no word carries them, the line is read all the same, as a U.START that is not
well-formed (log 23: DESIGN CHOICE, unsafe). -/
def readStart : (bytes : List Byte) → List (List Char) → Option Instr
  | _, [] => none
  | bytes, t :: ts =>
    if t = [']'] then
      match ts with
      | [comma, count] =>
        if comma = [','] then (number 10 count).map fun n => .uStart n bytes.length bytes else none
      | _ => none
    else
      match fixedNumber 16 2 t with
      | none => none
      | some b => readStart (bytes ++ [BitVec.ofNat 8 b]) ts

/-- The command of a list of words. -/
def readTokens : List (List Char) → Option Instr
  | [] => none
  | m :: ops =>
    if m = ['Q', 'U', 'A', 'N', 'T'] then
      match ops with
      | [x] => (readSample x).map .quant
      | _ => none
    else if m = ['D', 'E', 'Q', 'U', 'A', 'N', 'T'] then
      match ops with
      | [x] => (readCode x).map .dequant
      | _ => none
    else if m = ['P', '.', 'I', 'N', 'I', 'T'] then (if ops = [] then some .pInit else none)
    else if m = ['P', '.', 'P', 'U', 'S', 'H'] then
      match ops with
      | [x] => (readCode x).map .pPush
      | _ => none
    else if m = ['P', '.', 'F', 'L', 'U', 'S', 'H'] then (if ops = [] then some .pFlush else none)
    else if m = ['U', '.', 'S', 'T', 'A', 'R', 'T'] then
      match ops with
      | o :: rest => if o = ['['] then readStart [] rest else none
      | [] => none
    else if m = ['U', '.', 'P', 'O', 'P'] then (if ops = [] then some .uPop else none)
    else none

/-- The command of a line (R58); none for a line that holds none. -/
def readLine (cs : List Char) : Option Instr := readTokens (tokens [] (commandPart cs))

end Sys2Proof.Machine
end

