-- ==== Sys2Proof/Safety.lean ====
section
/-! DEFINITION. What holds at every command boundary (10_state.md R26) and what a safe step is, in the
terms the statements use. -/

namespace Sys2Proof.Machine

/-- The invariant of unit P: R26 (b) to (e) and the bound of R15. R26 (a) holds by the type `Fill`. -/
structure Packer.Inv (p : Packer) : Prop where
  /-- R26 (b), state E. -/
  curEmpty : p.free = .empty → p.cur = 0x00
  /-- R26 (b), state H. -/
  curHalf : p.free = .half → p.cur.extractLsb' 0 4 = 0
  /-- R26 (c). -/
  closed : p.isOpen = false → p.free = .empty ∧ p.cur = 0x00
  /-- R26 (d). -/
  parity : p.isOpen = true → (p.free = .empty ↔ p.cnt % 2 = 0)
  /-- R26 (e), stream open. -/
  lenOpen : p.isOpen = true → p.out.length = 3 * p.cnt / 2
  /-- R26 (e), stream closed. -/
  lenClosed : p.isOpen = false → p.out.length = (3 * p.cnt + 1) / 2
  /-- R15. -/
  cntMax : p.cnt ≤ Config.nmax

/-- The invariant of unit U: R26 (f), (g), with `n` the count given to the last successful U.START,
and the bounds of R18 and R20. -/
structure Unpacker.Inv (u : Unpacker) : Prop where
  /-- R26 (f). -/
  lenSrc : u.len = u.src.length
  /-- R26 (g) and R20. -/
  count : ∃ n, n ≤ Config.nmax ∧ u.nib + 3 * u.rem = 3 * n ∧ (3 * n + 1) / 2 = u.len
  /-- R18: `U.LEN` is `CW` bits wide. -/
  lenMax : u.len < 2 ^ Config.cw

/-- R26: the invariant of the block. -/
structure State.Inv (s : State) : Prop where
  p : s.p.Inv
  u : s.u.Inv

/-- The host presents a U.START word with exactly `len` bytes (30_encoding.md R53). -/
def HostEvent.presentable : HostEvent → Bool
  | .reset => true
  | .command c => if c.op = 0x8 then decide (c.bytes.length = c.lenField) else true

/-- The three units (10_state.md R10). -/
inductive UnitName where
  | q
  | p
  | u
  deriving DecidableEq, Repr

/-- The unit a command is for (30_encoding.md R53, R54). -/
def unitOf : Instr → UnitName
  | .quant _ => .q
  | .dequant _ => .q
  | .pInit => .p
  | .pPush _ => .p
  | .pFlush => .p
  | .uStart _ _ _ => .u
  | .uPop => .u

/-- `exec` completes `i` in `s` with the response `r`, in the state `t`. -/
def completes (i : Instr) (s : State) (r : Response) (t : State) : Prop :=
  exec i s = .next t ∧ t.responses = s.responses ++ [r]

/-- The step serves the command `c`, presented first, with the response `r`, in the state `t`. -/
def answers (c : Command) (s : State) (r : Response) (t : State) : Prop :=
  (∃ rest, s.inputs = .command c :: rest) ∧ step s = .next t ∧ t.responses = s.responses ++ [r]

/-- The reserved values of `op` (30_encoding.md R56). -/
def reservedOps : List (BitVec 4) := [0x2, 0x3, 0x7, 0xA, 0xB, 0xC, 0xD, 0xE, 0xF]

/-- `w` is a NaN pattern (30_encoding.md R51): exponent field 2047, fraction not 0. -/
def isNaN (w : Sample) : Prop := w.extractLsb' 52 11 = 2047 ∧ w.extractLsb' 0 52 ≠ 0

/-- The binary64 value of finite datum `x`, as a rational number. -/
def FinVal.toRat (x : FinVal) : ℚ := x.val / 2 ^ 1074

/-- Some binary64 word has the magnitude `m` (in units of 2^-1074). -/
def isMagnitude (m : Nat) : Prop := ∃ w s, F64.ofWord w = some (.fin ⟨s, m⟩)

/-- `r` is `RNE64(x)` for a real `x` that is a rational (40_quantizer.md R70): infinity from the
overflow threshold on, else a binary64 value of the sign of `x` that no other is nearer to, its last
fraction bit 0 where another one is as near. The sign of a zero result of an exact 0 is not said here. -/
def isRNE64 (x : ℚ) : F64 → Prop
  | .inf s => 2 ^ 1024 - 2 ^ 970 ≤ |x| ∧ (s = true ↔ x < 0)
  | .fin y =>
    |x| < 2 ^ 1024 - 2 ^ 970 ∧ isMagnitude y.mag ∧ (0 < x → y.neg = false) ∧ (x < 0 → y.neg = true) ∧
    ∀ z : FinVal, isMagnitude z.mag → z.toRat ≠ y.toRat →
      |y.toRat - x| ≤ |z.toRat - x| ∧
      (|y.toRat - x| = |z.toRat - x| → (F64.toWord (.fin y)).extractLsb' 0 1 = 0)

end Sys2Proof.Machine
end

