-- ==== Sys2Proof/Certificates/Slice0/Obligations.lean ====
section
/-! DEFINITION. The statements for the provers. Each docstring names the rule of spec/ it formalises; a
statement that rests on an inference the spec marks as its own, or on a choice of the model, says so. -/

open Sys2Proof Sys2Proof.Machine

/-! ### Encoding -/

/-- Decode and encode agree on every well-formed command (30_encoding.md section 2). The encoder and its
zero in every ignored payload bit are the model's (log 19). -/
def Obligations.DecodeOfEncode : Prop :=
  ∀ i : Instr, i.WellFormed → decode (encode i) = .ok i

/-- R55: every operand is its field of the word, read as an unsigned number, and no other payload bit
has an effect. -/
def Obligations.OperandsAreTheFieldsOfTheWord : Prop :=
  ∀ c : Command,
    let w := c.word.toNat
    (w / 2 ^ 64 = 0x0 → decode c = .ok (.quant (BitVec.ofNat 64 (w % 2 ^ 64)))) ∧
    (w / 2 ^ 64 = 0x1 → decode c = .ok (.dequant (BitVec.ofNat 12 (w % 2 ^ 12)))) ∧
    (w / 2 ^ 64 = 0x4 → decode c = .ok .pInit) ∧
    (w / 2 ^ 64 = 0x5 → decode c = .ok (.pPush (BitVec.ofNat 12 (w % 2 ^ 12)))) ∧
    (w / 2 ^ 64 = 0x6 → decode c = .ok .pFlush) ∧
    (w / 2 ^ 64 = 0x8 → c.bytes.length = w / 2 ^ 32 % 2 ^ 32 →
      decode c = .ok (.uStart (w % 2 ^ 32) (w / 2 ^ 32 % 2 ^ 32) c.bytes)) ∧
    (w / 2 ^ 64 = 0x9 → decode c = .ok .uPop)

/-- R56: a reserved `op` is answered with ConfigError and changes no unit; under a valid `op` every
payload is a legal command. -/
def Obligations.ReservedOpsAnswerConfigError : Prop :=
  (∀ (s : State) (c : Command) (rest : List HostEvent),
    s.inputs = .command c :: rest → c.op ∈ reservedOps →
      step s = .next { s with inputs := rest, responses := s.responses ++ [.error .configError] }) ∧
  (∀ c : Command, c.op ∉ reservedOps → (c.op = 0x8 → c.bytes.length = c.lenField) →
    ∃ i, decode c = .ok i)

/-- What the decoder answers can be presented, and has the word's `op` (30_encoding.md section 2). -/
def Obligations.DecodedInstructionsAreWellFormed : Prop :=
  ∀ (c : Command) (i : Instr), decode c = .ok i → i.WellFormed ∧ i.opcode = c.op

/-- Command words of the programs and vectors of 95_test_vectors.md, one for every command. -/
def Obligations.WordsOfThePrograms : Prop :=
  decode ⟨0x03FE0000000000000, []⟩ = .ok (.quant 0x3FE0000000000000) ∧
  decode ⟨0x1FFFFFFFFFFFFFBFF, []⟩ = .ok (.dequant 0xBFF) ∧
  decode ⟨0x40000000000000000, []⟩ = .ok .pInit ∧
  decode ⟨0x50000000000000123, []⟩ = .ok (.pPush 0x123) ∧
  decode ⟨0x60000000000000000, []⟩ = .ok .pFlush ∧
  decode ⟨0x80000000300000002, [0xBA, 0x0D, 0xC0]⟩ = .ok (.uStart 2 3 [0xBA, 0x0D, 0xC0]) ∧
  decode ⟨0x90000000000000000, []⟩ = .ok .uPop ∧
  decode ⟨0x70000000000000000, []⟩ = .error (.reservedOp 0x7)

/-- Every well-formed command written in the script syntax of R58 is read back. The layout that is
written is the model's (log 20). -/
def Obligations.ScriptLinesReadBack : Prop :=
  ∀ i : Instr, i.WellFormed → readLine (lineOf i) = some i

/-! ### The step, reset and the invariant -/

/-- A step with a command presented runs the instruction its word decodes to, in the state in which it
is no longer presented (20_memory.md R38 a, R40; the list of presented events is the model's, log 2). -/
def Obligations.StepRunsTheDecodedCommand : Prop :=
  ∀ (s : State) (c : Command) (rest : List HostEvent) (i : Instr),
    s.inputs = .command c :: rest → decode c = .ok i → step s = exec i { s with inputs := rest }

/-- A word of the opcode table that is presented runs at the next step, in the state before its
presentation (the model's presentation, log 3). -/
def Obligations.TableWordRunsNext : Prop :=
  ∀ (s : State) (nbits w : Nat) (i : Instr),
    decodeTableWord nbits w = some i → step (s.withFetchWord nbits w) = exec i s

/-- R25: the reset value of every element; P is as after P.INIT, U as after `U.START [], 0`, and U.POP is
refused until a U.START with `n >= 1` succeeds. -/
def Obligations.ResetState : Prop :=
  State.reset.p.cur = 0x00 ∧ State.reset.p.free.bits = 8 ∧ State.reset.p.isOpen = true ∧
  State.reset.p.cnt = 0 ∧ State.reset.p.out = [] ∧ State.reset.u.src = [] ∧
  State.reset.u.len = 0 ∧ State.reset.u.nib = 0 ∧ State.reset.u.rem = 0 ∧
  (∃ t, exec .pInit State.reset = .next t ∧ t.p = State.reset.p) ∧
  (∃ t, exec (.uStart 0 0 []) State.reset = .next t ∧ t.u = State.reset.u) ∧
  (∀ s : State, s.u.rem = 0 → ∃ t, completes .uPop s (.error .configError) t ∧ t.u = s.u) ∧
  (∀ (i : Instr) (s t : State), s.u.rem = 0 → exec i s = .next t →
    ¬ (∃ n len bytes, i = .uStart n len bytes ∧ 1 ≤ n ∧ t.responses = s.responses ++ [.ok 0]) →
    t.u.rem = 0)

/-- The invariant of command boundaries holds after reset (10_state.md section 5, marked as derived
there). -/
def Obligations.ResetMeetsTheInvariant : Prop := State.reset.Inv

/-- The invariant of command boundaries is kept by every step: every command, every refused word, every
reset event (10_state.md section 5, marked as derived there). -/
def Obligations.StepKeepsTheInvariant : Prop :=
  ∀ s t : State, s.Inv → step s = .next t → t.Inv

/-- Where the invariant holds and a U.START word comes with exactly its bytes, a step never faults and
never refuses: no read outside the stream exists (42_unpacker.md section 1) and every command responds
(70_reset_and_hazards.md section 4). -/
def Obligations.StepNeverStops : Prop :=
  ∀ s : State, s.Inv → (∀ e ∈ s.inputs.head?, e.presentable = true) → ∃ t, step s = .next t

/-- R150: the reset event puts every element of all units at its reset value, in any state, and nothing
but a command or the reset event changes state. -/
def Obligations.ResetEvent : Prop :=
  (∀ (s : State) (rest : List HostEvent), s.inputs = .reset :: rest →
    step s = .next { s with
      p := { cur := 0x00, free := .empty, isOpen := true, cnt := 0, out := [] },
      u := { src := [], len := 0, nib := 0, rem := 0 }, inputs := rest }) ∧
  (∀ s : State, s.inputs = [] → step s = .next s)

/-! ### Unit Q -/

/-- R51: the value of every binary64 word. -/
def Obligations.SampleWordsHaveTheirValue : Prop :=
  ∀ w : Sample,
    let e := (w.extractLsb' 52 11).toNat
    let t := (w.extractLsb' 0 52).toNat
    let sign : ℚ := if w.msb then -1 else 1
    (1 ≤ e ∧ e ≤ 2046 → ∃ m, F64.ofWord w = some (.fin ⟨w.msb, m⟩) ∧
      FinVal.toRat ⟨w.msb, m⟩ = sign * 2 ^ ((e : ℤ) - 1023) * (1 + t / 2 ^ 52)) ∧
    (e = 0 → ∃ m, F64.ofWord w = some (.fin ⟨w.msb, m⟩) ∧
      FinVal.toRat ⟨w.msb, m⟩ = sign * 2 ^ (-1022 : ℤ) * (t / 2 ^ 52)) ∧
    (e = 2047 ∧ t = 0 → F64.ofWord w = some (.inf w.msb)) ∧
    (e = 2047 ∧ t ≠ 0 → F64.ofWord w = none)

/-- The word written for the value of a word is that word (30_encoding.md section 1; the writer is the
model's, log 10). -/
def Obligations.SampleWordsReadBack : Prop :=
  ∀ (w : Sample) (x : F64), F64.ofWord w = some x → x.toWord = w

/-- R70: each operation is the exact result rounded once, to nearest with ties to even; the signs of
zero results and the infinite operands are those the rule lists. -/
def Obligations.ArithmeticIsRoundedToNearestEven : Prop :=
  (∀ a b : FinVal, isRNE64 (a.toRat + b.toRat) (fadd (.fin a) b)) ∧
  (∀ a b : FinVal, isRNE64 (a.toRat - b.toRat) (fsub (.fin a) b)) ∧
  (∀ a b : FinVal, isRNE64 (a.toRat * b.toRat) (fmul (.fin a) b)) ∧
  (∀ a b : FinVal, b.mag ≠ 0 → isRNE64 (a.toRat / b.toRat) (fdiv (.fin a) b)) ∧
  fdiv (.fin ⟨true, 0⟩) F64.two = .fin ⟨true, 0⟩ ∧
  fadd (.fin ⟨true, 0⟩) F64.half = .fin F64.half ∧
  (∀ a b : FinVal, a.mag ≠ 0 → b.mag ≠ 0 → a.toRat + b.toRat = 0 →
    fadd (.fin a) b = .fin ⟨false, 0⟩) ∧
  (∀ s, fdiv (.inf s) F64.two = .inf s) ∧ (∀ s, fadd (.inf s) F64.half = .inf s) ∧
  (∀ s, fmul (.inf s) (F64.ofNat 4095) = .inf s)

/-- R71: QUANT is RangeError for a NaN; for every other operand it completes with the clamped floor of
`((f / 2) + 0.5) * 4095`, evaluated operation by operation. -/
def Obligations.QuantEvaluatesTheFormula : Prop :=
  ∀ (f : Sample) (s : State),
    (isNaN f → exec (.quant f) s = .next { s with responses := s.responses ++ [.error .rangeError] }) ∧
    (¬ isNaN f → ∃ (x : F64) (q : Code), F64.ofWord f = some x ∧
      exec (.quant f) s = .next { s with responses := s.responses ++ [.ok (q.setWidth 64)] } ∧
      let t3 := fmul (fadd (fdiv x F64.two) F64.half) (F64.ofNat 4095)
      (t3.lt (.fin ⟨false, 0⟩) = true → q = 0) ∧
      (F64.le (.fin (F64.ofNat 4095)) t3 = true → q = 4095) ∧
      (t3.lt (.fin ⟨false, 0⟩) = false → F64.le (.fin (F64.ofNat 4095)) t3 = false →
        ∃ y : FinVal, t3 = .fin y ∧ (q.toNat : ℤ) = ⌊y.toRat⌋))

/-- R73: QUANT of every NaN pattern is RangeError with no state change, and nothing else is. -/
def Obligations.QuantOfNaNIsTheOnlyRangeError : Prop :=
  (∀ (f : Sample) (s : State), isNaN f →
    exec (.quant f) s = .next { s with responses := s.responses ++ [.error .rangeError] }) ∧
  (∀ (i : Instr) (s t : State), completes i s (.error .rangeError) t → ∃ f, i = .quant f ∧ isNaN f)

/-- R72: for every ordered operand QUANT responds OK with a code, 0 when `t3 < 0` and 4095 when
`t3 >= 4095`; so every operand below -1.0 gives 0 and every operand above 1.0 gives 4095, both
infinities included. -/
def Obligations.QuantClamps : Prop :=
  ∀ (f : Sample) (x : F64) (s : State), F64.ofWord f = some x →
    ∃ q : Code, exec (.quant f) s = .next { s with responses := s.responses ++ [.ok (q.setWidth 64)] } ∧
      (F64.lt (fmul (fadd (fdiv x F64.two) F64.half) (F64.ofNat 4095)) (.fin ⟨false, 0⟩) = true →
        q = 0) ∧
      (F64.le (.fin (F64.ofNat 4095)) (fmul (fadd (fdiv x F64.two) F64.half) (F64.ofNat 4095)) = true →
        q = 4095) ∧
      (x.lt (.fin ⟨true, F64.one⟩) = true → q = 0) ∧
      (F64.lt (.fin ⟨false, F64.one⟩) x = true → q = 4095)

/-- R74: the fixed points of the mapping; both zeros give 2047. -/
def Obligations.QuantFixedPoints : Prop :=
  ∀ s : State,
    exec (.quant 0x0000000000000000) s = .next { s with responses := s.responses ++ [.ok 2047] } ∧
    exec (.quant 0x8000000000000000) s = .next { s with responses := s.responses ++ [.ok 2047] } ∧
    exec (.quant 0xBFF0000000000000) s = .next { s with responses := s.responses ++ [.ok 0] } ∧
    exec (.quant 0x3FF0000000000000) s = .next { s with responses := s.responses ++ [.ok 4095] }

/-- QUANT is monotone on the ordered operands (40_quantizer.md section 2, "QUANT is monotone", marked
as derived there). -/
def Obligations.QuantIsMonotone : Prop :=
  ∀ (f g : Sample) (x y : F64) (s : State),
    F64.ofWord f = some x → F64.ofWord g = some y → F64.le x y = true →
      ∃ a b : Code,
        exec (.quant f) s = .next { s with responses := s.responses ++ [.ok (a.setWidth 64)] } ∧
        exec (.quant g) s = .next { s with responses := s.responses ++ [.ok (b.setWidth 64)] } ∧
        a.toNat ≤ b.toNat

/-- The thresholds of 95_test_vectors.md section 2.2: `QUANT(s_k) = k` and `QUANT(p_k) = k - 1`. -/
def Obligations.QuantThresholds : Prop :=
  ∀ e ∈ ([(1, 0xBFEFFBFFBFFBFFBF, 0xBFEFFBFFBFFBFFC0), (2, 0xBFEFF7FF7FF7FF7F, 0xBFEFF7FF7FF7FF80),
      (1024, 0xBFDFFDFFDFFDFFE1, 0xBFDFFDFFDFFDFFE2), (2047, 0xBF30010010010400, 0xBF30010010010401),
      (2048, 0x3F3001001000F800, 0x3F3001001000F7FF), (2049, 0x3F48018018017C00, 0x3F48018018017BFF),
      (3072, 0x3FE003003003002F, 0x3FE003003003002E), (4094, 0x3FEFFBFFBFFBFFBF, 0x3FEFFBFFBFFBFFBE),
      (4095, 0x3FEFFFFFFFFFFFFF, 0x3FEFFFFFFFFFFFFE)] : List (Nat × Sample × Sample)),
    quantize e.2.1 = some (BitVec.ofNat 12 e.1) ∧ quantize e.2.2 = some (BitVec.ofNat 12 (e.1 - 1))

/-- R76: DEQUANT completes with the word of `(v / 4095 - 0.5) * 2`, evaluated operation by operation:
exactly -1.0 and 1.0 at the ends, always finite, in [-1.0, 1.0] and not zero, the division inexact in
between, the subtraction exact from 0.25 on, the multiplication exact. -/
def Obligations.DequantEvaluatesTheFormula : Prop :=
  (∀ (v : Code) (s : State), ∃ u1 u2 u3 : FinVal,
    fdiv (.fin (F64.ofNat v.toNat)) (F64.ofNat 4095) = .fin u1 ∧
    fsub (.fin u1) F64.half = .fin u2 ∧ fmul (.fin u2) F64.two = .fin u3 ∧
    exec (.dequant v) s =
      .next { s with responses := s.responses ++ [.ok (F64.toWord (.fin u3))] } ∧
    F64.ofWord (F64.toWord (.fin u3)) = some (.fin u3) ∧
    u3.toRat ≠ 0 ∧ -1 ≤ u3.toRat ∧ u3.toRat ≤ 1 ∧
    (u1.toRat = v.toNat / 4095 ↔ v = 0 ∨ v = 4095) ∧
    (1 / 4 ≤ u1.toRat → u2.toRat = u1.toRat - 1 / 2) ∧ u3.toRat = u2.toRat * 2) ∧
  dequantize 0 = 0xBFF0000000000000 ∧ dequantize 4095 = 0x3FF0000000000000 ∧
  dequantize 2047 = 0xBF30010010010000 ∧ dequantize 2048 = 0x3F30010010010000 ∧
  dequantize 0xBFF = 0x3FDFFDFFDFFDFFE0

/-- `QUANT(DEQUANT(v))` is `v - 1` for the codes in the listed ranges and `v` for all others
(40_quantizer.md section 4, "DEQUANT is not a right inverse", marked as derived there). -/
def Obligations.QuantAfterDequant : Prop :=
  ∀ v : Code,
    let n := v.toNat
    let listed := [(1, 32), (66, 93), (132, 163), (196, 219), (264, 295), (328, 343), (392, 423),
      (456, 471), (528, 559), (656, 687), (784, 815), (912, 943)]
    quantize (dequantize v) =
      some (if listed.any (fun r => decide (r.1 ≤ n ∧ n ≤ r.2)) then v - 1 else v)

/-- The quantization error of R77 in binary64: for every finite operand in [-1, 1] the decoded sample is
above the original by at most `2^-50` and below it by less than `2/4095 + 2^-50`; and it can be above, by
`2^-53` for `0x3FEFFFFFFFFFFFFF`. The `2^-50` is this statement's own number for the spec's "within a few
units in the last place of that real interval". -/
def Obligations.QuantizationError : Prop :=
  (∀ (f : Sample) (x : FinVal), F64.ofWord f = some (.fin x) → -1 ≤ x.toRat → x.toRat ≤ 1 →
    ∃ (q : Code) (y : FinVal), quantize f = some q ∧ F64.ofWord (dequantize q) = some (.fin y) ∧
      -(1 / 2 ^ 50) ≤ x.toRat - y.toRat ∧ x.toRat - y.toRat < 2 / 4095 + 1 / 2 ^ 50) ∧
  (∃ x y : FinVal, F64.ofWord 0x3FEFFFFFFFFFFFFF = some (.fin x) ∧
    quantize 0x3FEFFFFFFFFFFFFF = some 4095 ∧ F64.ofWord (dequantize 4095) = some (.fin y) ∧
    x.toRat - y.toRat = -(1 / 2 ^ 53))

/-- R11: the response of QUANT and of DEQUANT depends on the operand alone, and no state element
changes. -/
def Obligations.UnitQIsPure : Prop :=
  (∀ f : Sample, ∃ r, ∀ s : State,
    exec (.quant f) s = .next { s with responses := s.responses ++ [r] }) ∧
  (∀ v : Code, ∃ r, ∀ s : State,
    exec (.dequant v) s = .next { s with responses := s.responses ++ [r] })

/-! ### Unit P -/

/-- R90: P.INIT starts a new stream from every state. -/
def Obligations.InitStartsANewStream : Prop :=
  ∀ s : State, exec .pInit s = .next { s with
    p := { cur := 0x00, free := .empty, isOpen := true, cnt := 0, out := [] },
    responses := s.responses ++ [.ok 0] }

/-- R91: PutNibble fills the high half in state E and leaves state H; in state H it fills the low half,
emits the byte, clears it and leaves state E. `h` is the nibble already in the high half. -/
def Obligations.PutNibbleFillsTheNextHalf : Prop :=
  ∀ (p : Packer) (x h : Nibble),
    (p.free = .empty → p.cur = 0x00 →
      p.putNibble x = { p with cur := (x ++ 0#4 : Byte), free := .half }) ∧
    (p.free = .half → p.cur = (h ++ 0#4 : Byte) →
      p.putNibble x =
        { p with cur := 0x00, free := .empty, out := p.out ++ [(h ++ x : Byte)] })

/-- R92: P.PUSH is refused when the stream is closed or the count is at NMAX, with nothing changed;
else it emits one byte from state E and two from state H, and counts the code. `h` is the nibble waiting
in the high half. -/
def Obligations.PushWritesThreeNibbles : Prop :=
  ∀ (v : Code) (s : State) (h : Nibble),
    let lo : Nibble := v.extractLsb' 0 4
    let mid : Nibble := v.extractLsb' 4 4
    let hi : Nibble := v.extractLsb' 8 4
    (s.p.isOpen = false ∨ s.p.cnt = Config.nmax →
      exec (.pPush v) s = .next { s with responses := s.responses ++ [.error .configError] }) ∧
    (s.p.isOpen = true → s.p.cnt ≠ Config.nmax → s.p.free = .empty → s.p.cur = 0x00 →
      exec (.pPush v) s = .next { s with
        p := { s.p with cur := (hi ++ 0#4 : Byte), free := .half, cnt := s.p.cnt + 1,
                        out := s.p.out ++ [(lo ++ mid : Byte)] },
        responses := s.responses ++ [.ok 0] }) ∧
    (s.p.isOpen = true → s.p.cnt ≠ Config.nmax → s.p.free = .half → s.p.cur = (h ++ 0#4 : Byte) →
      exec (.pPush v) s = .next { s with
        p := { s.p with cur := 0x00, free := .empty, cnt := s.p.cnt + 1,
                        out := s.p.out ++ [(h ++ lo : Byte), (mid ++ hi : Byte)] },
        responses := s.responses ++ [.ok 0] })

/-- R93: P.FLUSH is refused when the stream is closed; else it emits nothing in state E and exactly one byte
in state H, `P.CUR` as it is, closes the stream and keeps the count. Where the invariant of command boundaries
holds, that byte has the pending nibble high and the zero pad low. -/
def Obligations.FlushPadsAndCloses : Prop :=
  ∀ s : State,
    (s.p.isOpen = false →
      exec .pFlush s = .next { s with responses := s.responses ++ [.error .configError] }) ∧
    (s.p.isOpen = true → s.p.free = .empty →
      exec .pFlush s = .next { s with
        p := { s.p with isOpen := false }, responses := s.responses ++ [.ok 0] }) ∧
    (s.p.isOpen = true → s.p.free = .half →
      exec .pFlush s = .next { s with
        p := { s.p with cur := 0x00, free := .empty, isOpen := false, out := s.p.out ++ [s.p.cur] },
        responses := s.responses ++ [.ok 0] }) ∧
    (s.p.Inv → s.p.isOpen = true → s.p.free = .half →
      ∃ h : Nibble, s.p.cur = (h ++ 0#4 : Byte) ∧
        exec .pFlush s = .next { s with
          p := { s.p with cur := 0x00, free := .empty, isOpen := false,
                          out := s.p.out ++ [(h ++ 0#4 : Byte)] },
          responses := s.responses ++ [.ok 0] })

/-- R15: P.CNT counts the accepted pushes, is set to 0 by P.INIT, is changed by nothing else, and a push
that would take it past NMAX is refused. -/
def Obligations.CountNeverWraps : Prop :=
  ∀ (i : Instr) (s t : State), exec i s = .next t →
    (i = .pInit ∧ t.p.cnt = 0) ∨
    (∃ v, i = .pPush v ∧ s.p.cnt ≠ Config.nmax ∧ t.p.cnt = s.p.cnt + 1 ∧
      t.responses = s.responses ++ [.ok 0]) ∨
    (i ≠ .pInit ∧ t.p.cnt = s.p.cnt ∧
      ∀ v, i = .pPush v → t.responses = s.responses ++ [.error .configError])

/-- A byte once emitted is changed and removed by no step but P.INIT and the reset event
(20_memory.md section 2, "Emitted bytes are final", marked as derived there). -/
def Obligations.EmittedBytesAreFinal : Prop :=
  ∀ s t : State, step s = .next t →
    (∀ rest, s.inputs ≠ .reset :: rest) →
    (∀ c rest, s.inputs = .command c :: rest → decode c ≠ .ok .pInit) →
      ∀ k, k < s.p.out.length → t.p.out[k]? = s.p.out[k]?

/-- Bytes emitted per command, by the parity of the count (41_packer.md section 2, marked as derived
there). -/
def Obligations.BytesEmittedPerCommand : Prop :=
  ∀ s t : State, s.p.Inv →
    (∀ v, completes (.pPush v) s (.ok 0) t →
      t.p.out.length = s.p.out.length + if s.p.cnt % 2 = 0 then 1 else 2) ∧
    (completes .pFlush s (.ok 0) t →
      t.p.out.length = s.p.out.length + if s.p.cnt % 2 = 0 then 0 else 1)

/-- R94: the commands of PACK all succeed from every state, and leave `pack(vs)`, the fold of
PutNibble, in P.OUT. -/
def Obligations.PackRunsOnTheBlock : Prop :=
  (∀ (vs : List Code) (s : State), vs.length ≤ Config.nmax →
    ∃ t, hostPack vs s = some (.ok (pack vs), t) ∧ t.p.out = pack vs ∧ t.u = s.u) ∧
  pack [] = []

/-- Byte `k` of `pack(vs)` is the two lanes `2k` and `2k + 1` (41_packer.md section 2, "Closed form",
marked as derived there). -/
def Obligations.PackClosedForm : Prop :=
  ∀ (vs : List Code) (k : Nat), k < (3 * vs.length + 1) / 2 →
    ∃ hi lo : Nibble, laneOf vs (2 * k) = some hi ∧ laneOf vs (2 * k + 1) = some lo ∧
      (pack vs)[k]? = some (hi ++ lo : Byte)

/-- R96: the length invariant, for every count; before the flush `(3 * P.CNT) div 2` bytes; the last
byte of an odd count has a zero low nibble. -/
def Obligations.PackLength : Prop :=
  ∀ vs : List Code,
    (pack vs).length = (3 * vs.length + 1) / 2 ∧
    ((nibblesOf vs).foldl (fun p x => p.putNibble x) Packer.reset).out.length =
      3 * vs.length / 2 ∧
    (vs.length % 2 = 1 → ∃ b : Byte, (pack vs).getLast? = some b ∧ b.extractLsb' 0 4 = 0)

/-- Concatenation of finished streams (70_reset_and_hazards.md section 3, "No flush inside a stream",
marked as derived there). -/
def Obligations.PackAppend : Prop :=
  (∀ vs ws : List Code, vs.length % 2 = 0 → pack (vs ++ ws) = pack vs ++ pack ws) ∧
  pack [0x123] ++ pack [0x123] = [0x32, 0x10, 0x32, 0x10] ∧ pack [0x123, 0x123] = [0x32, 0x13, 0x21]

/-! ### Unit U -/

/-- R31: nibble `j` is the high half of byte `j div 2` for even `j`, the low half for odd `j`. -/
def Obligations.NibbleAddressing : Prop :=
  ∀ (s : List Byte) (j : Nat),
    (j < 2 * s.length → ∃ b, s[j / 2]? = some b ∧
      nibbleAt s j = some (if j % 2 = 0 then b.extractLsb' 4 4 else b.extractLsb' 0 4)) ∧
    (2 * s.length ≤ j → nibbleAt s j = none)

/-- R110: the checks of U.START in their order, each leaving unit U as it was, and the capture. -/
def Obligations.StartChecksAndCaptures : Prop :=
  ∀ (n len : Nat) (bytes : List Byte) (s : State),
    (Config.nmax < n → exec (.uStart n len bytes) s =
      .next { s with responses := s.responses ++ [.error .configError] }) ∧
    (n ≤ Config.nmax → len < (3 * n + 1) / 2 → exec (.uStart n len bytes) s =
      .next { s with responses := s.responses ++ [.error .lengthError] }) ∧
    (n ≤ Config.nmax → (3 * n + 1) / 2 < len → exec (.uStart n len bytes) s =
      .next { s with responses := s.responses ++ [.error .configError] }) ∧
    (n ≤ Config.nmax → len = (3 * n + 1) / 2 → exec (.uStart n len bytes) s =
      .next { s with u := { src := bytes, len := len, nib := 0, rem := n },
                     responses := s.responses ++ [.ok 0] })

/-- R112: U.POP is refused with nothing left; else it returns `N0 | (N1 << 4) | (N2 << 8)` of the next
three nibbles, and advances. -/
def Obligations.PopReturnsTheNextCode : Prop :=
  ∀ s : State,
    (s.u.rem = 0 →
      exec .uPop s = .next { s with responses := s.responses ++ [.error .configError] }) ∧
    (s.u.Inv → s.u.rem ≠ 0 → ∃ (n0 n1 n2 : Nibble) (v : Code),
      nibbleAt s.u.src s.u.nib = some n0 ∧ nibbleAt s.u.src (s.u.nib + 1) = some n1 ∧
      nibbleAt s.u.src (s.u.nib + 2) = some n2 ∧
      v.toNat = n0.toNat + 16 * n1.toNat + 256 * n2.toNat ∧
      exec .uPop s = .next { s with
        u := { s.u with nib := s.u.nib + 3, rem := s.u.rem - 1 },
        responses := s.responses ++ [.ok (v.setWidth 64)] })

/-- R113: UNPACK fails at U.START with nothing changed, or returns `n` codes. R113 says this of every byte
sequence, and so does the statement, also of 2^32 bytes or more, which no command word carries (log 21). -/
def Obligations.UnpackSucceedsOrFailsAtTheStart : Prop :=
  (∀ (bytes : List Byte) (n : Nat) (s : State),
    (n ≤ Config.nmax → bytes.length < (3 * n + 1) / 2 → hostUnpack bytes n s =
      some (.error .lengthError, { s with responses := s.responses ++ [.error .lengthError] })) ∧
    ((3 * n + 1) / 2 < bytes.length ∨ Config.nmax < n → hostUnpack bytes n s =
      some (.error .configError, { s with responses := s.responses ++ [.error .configError] })) ∧
    (n ≤ Config.nmax → bytes.length = (3 * n + 1) / 2 →
      ∃ vs t, hostUnpack bytes n s = some (.ok vs, t) ∧ vs.length = n)) ∧
  (∀ s : State, ∃ t, hostUnpack [] 0 s = some (.ok [], t))

/-- Code `i` that UNPACK returns is made of nibbles `3i`, `3i + 1`, `3i + 2` (42_unpacker.md section 2,
"Closed form", marked as derived there). For 2^32 bytes or more, which no command word carries, it rests
on the model's choice that UNPACK follows R113 there too (log 21: DESIGN CHOICE, unsafe). -/
def Obligations.UnpackClosedForm : Prop :=
  ∀ (bytes : List Byte) (n : Nat) (s t : State) (vs : List Code),
    hostUnpack bytes n s = some (.ok vs, t) →
      vs.length = n ∧ ∀ i, i < n → ∃ v, vs[i]? = some v ∧ codeAt bytes i = some v

/-- R115: the pad nibble of an odd count changes neither the result nor the status; also for 2^32 bytes or
more, which no command word carries (log 21). -/
def Obligations.UnpackIgnoresThePad : Prop :=
  ∀ (front : List Byte) (hi lo lo' : Nibble) (n : Nat) (s t : State) (r : Except Err (List Code)),
    n % 2 = 1 → hostUnpack (front ++ [(hi ++ lo : Byte)]) n s = some (r, t) →
      (front ++ [(hi ++ lo : Byte)]).length = (3 * n + 1) / 2 →
      ∃ t', hostUnpack (front ++ [(hi ++ lo' : Byte)]) n s = some (r, t')

/-- Unpacking a packed sequence gives the sequence back (42_unpacker.md section 2, "Round trip", marked
as derived there). For 2^32 bytes or more, which no command word carries, it rests
on the model's choice that UNPACK follows R113 there too (log 21: DESIGN CHOICE, unsafe). -/
def Obligations.UnpackOfPack : Prop :=
  ∀ (vs : List Code) (s : State), vs.length ≤ Config.nmax →
    ∃ t, hostUnpack (pack vs) vs.length s = some (.ok vs, t)

/-- Packing what UNPACK returned gives the stream back, with the pad nibble of an odd count at zero
(42_unpacker.md section 2, "Round trip", marked as derived there). For 2^32 bytes or more, which no command word carries, it rests
on the model's choice that UNPACK follows R113 there too (log 21: DESIGN CHOICE, unsafe). -/
def Obligations.PackOfUnpack : Prop :=
  ∀ (bytes : List Byte) (n : Nat) (s t : State) (vs : List Code),
    hostUnpack bytes n s = some (.ok vs, t) →
      (n % 2 = 0 → pack vs = bytes) ∧
      (n % 2 = 1 → ∃ (front : List Byte) (hi lo : Nibble),
        bytes = front ++ [(hi ++ lo : Byte)] ∧ pack vs = front ++ [(hi ++ 0#4 : Byte)])

/-- At most one count fits a length, and none a length `3k + 1` (42_unpacker.md section 2, "The length
determines the count", marked as derived there). -/
def Obligations.LengthDeterminesTheCount : Prop :=
  ∀ (n len : Nat) (bytes : List Byte) (s : State),
    (∀ t, completes (.uStart n len bytes) s (.ok 0) t → len % 3 ≠ 1 ∧ n = 2 * len / 3) ∧
    (len % 3 ≠ 1 → n = 2 * len / 3 → n ≤ Config.nmax →
      ∃ t, completes (.uStart n len bytes) s (.ok 0) t) ∧
    (len % 3 = 1 → n ≤ Config.nmax →
      ∃ t, completes (.uStart n len bytes) s
        (.error (if 2 * (len / 3) < n then .lengthError else .configError)) t)

/-- R117: U.NIB advances by exactly 3 per U.POP that returns a code, is set to 0 by a U.START that succeeds,
and is left as it is by a refused one of either and by every other command. After the last code of a stream
of `n` codes it is `3n`, even (state E) exactly when `n` is; so it is in every state with no code left. -/
def Obligations.CursorOnlyAdvances : Prop :=
  (∀ (i : Instr) (s t : State), exec i s = .next t →
    (i = .uPop ∧ (∃ x, t.responses = s.responses ++ [.ok x]) ∧ t.u.nib = s.u.nib + 3) ∨
    (∃ n len bytes, i = .uStart n len bytes ∧ t.responses = s.responses ++ [.ok 0] ∧ t.u.nib = 0) ∨
    (t.u.nib = s.u.nib ∧ (i = .uPop → t.responses = s.responses ++ [.error .configError]) ∧
      (∀ n len bytes, i = .uStart n len bytes → ∃ e, t.responses = s.responses ++ [.error e]))) ∧
  (∀ (s t : State) (x : BitVec 64) (n : Nat), s.u.Inv → s.u.len = streamBytes n → s.u.rem = 1 →
    completes .uPop s (.ok x) t →
      t.u.rem = 0 ∧ t.u.nib = 3 * n ∧ (t.u.nib % 2 = 0 ↔ n % 2 = 0)) ∧
  (∀ (u : Unpacker) (n : Nat), u.Inv → u.len = streamBytes n → u.rem = 0 →
    u.nib = 3 * n ∧ (u.nib % 2 = 0 ↔ n % 2 = 0))

/-! ### The state machine, errors, independence -/

/-- Every nibble step and every accepted P.PUSH and U.POP toggles the state between E and H, so a stream
is in E after an even number of codes (10_state.md section 4, R24). -/
def Obligations.NibbleStepsToggleTheState : Prop :=
  (∀ (p : Packer) (x : Nibble), (p.putNibble x).free ≠ p.free) ∧
  (∀ (u u' : Unpacker) (x : Nibble), u.getNibble = some (x, u') → u'.nib % 2 ≠ u.nib % 2) ∧
  (∀ (v : Code) (s t : State), completes (.pPush v) s (.ok 0) t → t.p.free ≠ s.p.free) ∧
  (∀ (s t : State) (x : BitVec 64), completes .uPop s (.ok x) t → t.u.nib % 2 ≠ s.u.nib % 2)

/-- R131, R132, R133: each error has the causes the rules list, and no others. -/
def Obligations.ErrorsHaveTheirCauses : Prop :=
  ∀ (c : Command) (s t : State) (r : Response), answers c s r t →
    (r = .error .rangeError ↔ ∃ f, decode c = .ok (.quant f) ∧ isNaN f) ∧
    (r = .error .lengthError ↔
      ∃ n len bytes, decode c = .ok (.uStart n len bytes) ∧ len < (3 * n + 1) / 2) ∧
    (r = .error .configError ↔
      c.op ∈ reservedOps ∨
      (∃ v, decode c = .ok (.pPush v) ∧ (s.p.isOpen = false ∨ s.p.cnt = Config.nmax)) ∨
      (decode c = .ok .pFlush ∧ s.p.isOpen = false) ∨
      (∃ n len bytes, decode c = .ok (.uStart n len bytes) ∧
        (Config.nmax < n ∨ (3 * n + 1) / 2 < len)) ∨
      (decode c = .ok .uPop ∧ s.u.rem = 0))

/-- R136: a command that ends in an error has written no state element. -/
def Obligations.ErrorsLeaveTheStateAsItWas : Prop :=
  ∀ (c : Command) (s t : State) (e : Err), answers c s (.error e) t → t.p = s.p ∧ t.u = s.u

/-- R137: the same command again gives the same error again, and no later command is affected by an
earlier error. -/
def Obligations.ErrorsAreNotSticky : Prop :=
  ∀ (i : Instr) (s t : State) (e : Err), completes i s (.error e) t →
    (∃ t', completes i t (.error e) t') ∧
    ∀ (j : Instr) (r : Response) (s' : State), completes j s r s' →
      ∃ t', completes j t r t' ∧ t'.p = s'.p ∧ t'.u = s'.u

/-- R57: every command returns one response; its status numbers; a code stands in `result[11:0]` with
the rest 0; a command without a result gives 0; an error carries no result. -/
def Obligations.OneResponsePerCommand : Prop :=
  (∀ (s t : State) (c : Command) (rest : List HostEvent),
    s.inputs = .command c :: rest → step s = .next t →
      t.inputs = rest ∧ ∃ r, t.responses = s.responses ++ [r]) ∧
  (∀ x, (Response.ok x).status = 0) ∧ (Response.error .rangeError).status = 1 ∧
  (Response.error .lengthError).status = 2 ∧ (Response.error .configError).status = 3 ∧
  (∀ e, (Response.error e).result = none) ∧
  (∀ (i : Instr) (s t : State) (x : BitVec 64), completes i s (.ok x) t →
    ((∃ f, i = .quant f) ∨ i = .uPop → x.extractLsb' 12 52 = 0) ∧
    ((∃ v, i = .dequant v) ∨ (∃ f, i = .quant f) ∨ i = .uPop ∨ x = 0))

/-- R10: no command to one unit reads or writes a state element of another unit. -/
def Obligations.UnitsShareNoState : Prop :=
  ∀ (i : Instr) (s s' t : State) (r : Response), completes i s r t →
    (unitOf i = .q → t.p = s.p ∧ t.u = s.u ∧ ∃ t', completes i s' r t') ∧
    (unitOf i = .p → t.u = s.u ∧ (s'.p = s.p → ∃ t', completes i s' r t' ∧ t'.p = t.p)) ∧
    (unitOf i = .u → t.p = s.p ∧ (s'.u = s.u → ∃ t', completes i s' r t' ∧ t'.u = t.u))

/-- Commands to different units commute: each unit gets the same states and responses in either order
(20_memory.md section 3, R38 b). -/
def Obligations.UnitsCommute : Prop :=
  ∀ (i j : Instr) (s s1 s2 : State) (r1 r2 : Response), unitOf i ≠ unitOf j →
    completes i s r1 s1 → completes j s1 r2 s2 →
      ∃ t1 t2, completes j s r2 t1 ∧ completes i t1 r1 t2 ∧ t2.p = s2.p ∧ t2.u = s2.u

/-- What each command leaves unchanged when it answers: unit Q everything; unit P all of unit U, and every
byte already in OUT for P.PUSH and P.FLUSH, P.OPEN for P.PUSH, P.CNT for P.FLUSH; unit U all of unit P, and
the captured stream for U.POP (10_state.md R10 to R20). -/
def Obligations.FramesOfTheCommands : Prop :=
  ∀ (i : Instr) (s t : State), exec i s = .next t →
    t.inputs = s.inputs ∧
    (s.responses <+: t.responses) ∧
    ((∃ f, i = .quant f) ∨ (∃ v, i = .dequant v) → t.p = s.p ∧ t.u = s.u) ∧
    (i = .pInit → t.u = s.u) ∧
    (∀ v, i = .pPush v → t.u = s.u ∧ t.p.isOpen = s.p.isOpen ∧
      ∀ k, k < s.p.out.length → t.p.out[k]? = s.p.out[k]?) ∧
    (i = .pFlush → t.u = s.u ∧ t.p.cnt = s.p.cnt ∧
      ∀ k, k < s.p.out.length → t.p.out[k]? = s.p.out[k]?) ∧
    (∀ n len bytes, i = .uStart n len bytes → t.p = s.p) ∧
    (i = .uPop → t.p = s.p ∧ t.u.src = s.u.src ∧ t.u.len = s.u.len)

/-! ### Pseudo-instructions -/

/-- ENCODE quantizes every sample and then packs; with a NaN among them it ends in RangeError with
nothing pushed (30_encoding.md section 3, R59). -/
def Obligations.EncodeQuantizesThenPacks : Prop :=
  (∀ (ss : List Sample) (qs : List Code) (s : State),
    ss.map quantize = qs.map some → qs.length ≤ Config.nmax →
      ∃ t, hostEncode ss s = some (.ok (pack qs), t) ∧ t.u = s.u) ∧
  (∀ (ss : List Sample) (s : State), (∃ f ∈ ss, isNaN f) →
    ∃ t, hostEncode ss s = some (.error .rangeError, t) ∧ t.p = s.p ∧ t.u = s.u)

/-- DECODE of a packed sequence gives the dequantized codes in order (30_encoding.md section 3, R59). It rests
on the round trip R116 (42_unpacker.md section 2, marked as derived there) and, for more than 2863311530 codes,
whose stream no command word carries, on the model's choice that UNPACK follows R113 there too (log 21: DESIGN
CHOICE, unsafe). -/
def Obligations.DecodeUnpacksThenDequantizes : Prop :=
  ∀ (vs : List Code) (s : State), vs.length ≤ Config.nmax →
    ∃ t, hostDecode (pack vs) vs.length s = some (.ok (vs.map dequantize), t) ∧ t.p = s.p
end

