-- ==== Sys2Proof/Laws/Decode.lean ====
section
/-! SUPPORT. The fields of a command word, read back from the word they were put into, and each field
as arithmetic on the word's number. -/

namespace Sys2Proof

theorem op_toNat (c : Command) : c.op.toNat = c.word.toNat / 2 ^ 64 := by
  have := c.word.isLt
  rw [Command.op, BitVec.extractLsb'_toNat, Nat.shiftRight_eq_div_pow]
  omega

theorem payload_toNat (c : Command) : c.payload.toNat = c.word.toNat % 2 ^ 64 := by
  simp [Command.payload, BitVec.extractLsb'_toNat]

theorem codeField_toNat (c : Command) : c.codeField.toNat = c.word.toNat % 2 ^ 12 := by
  simp [Command.codeField, BitVec.extractLsb'_toNat, Config.qw]

theorem countField_eq (c : Command) : c.countField = c.word.toNat % 2 ^ 32 := by
  simp [Command.countField, BitVec.extractLsb'_toNat, Config.cw]

theorem lenField_eq (c : Command) : c.lenField = c.word.toNat / 2 ^ 32 % 2 ^ 32 := by
  simp [Command.lenField, BitVec.extractLsb'_toNat, Config.cw, Nat.shiftRight_eq_div_pow]

theorem commandWord_toNat (op : BitVec 4) (payload : BitVec 64) :
    (commandWord op payload).toNat = op.toNat * 2 ^ 64 + payload.toNat := by
  have := payload.isLt
  rw [commandWord, BitVec.toNat_append, Nat.shiftLeft_eq, Nat.mul_comm,
    ← Nat.two_pow_add_eq_or_of_lt this]

@[simp] theorem op_commandWord (op : BitVec 4) (payload : BitVec 64) (bytes : List Byte) :
    (Command.mk (commandWord op payload) bytes).op = op := by
  apply BitVec.eq_of_toNat_eq
  have := payload.isLt
  rw [op_toNat, commandWord_toNat]
  omega

@[simp] theorem payload_commandWord (op : BitVec 4) (payload : BitVec 64) (bytes : List Byte) :
    (Command.mk (commandWord op payload) bytes).payload = payload := by
  apply BitVec.eq_of_toNat_eq
  have := payload.isLt
  rw [payload_toNat, commandWord_toNat]
  omega

/-- All that decoding can answer where it answers an instruction. -/
theorem decode_ok_cases {c : Command} {i : Instr} (h : decode c = .ok i) :
    (c.op = 0x0 ∧ i = .quant c.payload) ∨ (c.op = 0x1 ∧ i = .dequant c.codeField) ∨
    (c.op = 0x4 ∧ i = .pInit) ∨ (c.op = 0x5 ∧ i = .pPush c.codeField) ∨ (c.op = 0x6 ∧ i = .pFlush) ∨
    (c.op = 0x8 ∧ c.bytes.length = c.lenField ∧ i = .uStart c.countField c.lenField c.bytes) ∨
    (c.op = 0x9 ∧ i = .uPop) := by
  have key : ∀ k : Nat, c.op.toNat = k → c.op = BitVec.ofNat 4 k := fun k hk => by
    rw [← hk, BitVec.ofNat_toNat, BitVec.setWidth_eq]
  unfold decode at h
  split at h
  case h_6 ho =>
    unfold decodeStart at h
    split at h <;> cases h
    next hl => simp [key _ ho, hl]
  all_goals first
    | (next ho => cases h; simp [key _ ho])
    | cases h

end Sys2Proof
end

