-- ==== Sys2Proof/Laws/Float64.lean ====
section
/-! SUPPORT. What the rounding of Machine/Float64.lean can do, said once: it is exact where it can be,
it is never off by more than half a step, and it keeps the order. -/

namespace Sys2Proof.Machine

theorem pow2_eq (n : Nat) : pow2 n = 2 ^ n := by
  rw [pow2, ← Nat.pow_mul, ← Nat.pow_add, Nat.div_add_mod]

theorem log2Digits_eq (j m : Nat) (hm : m < 2 ^ 2 ^ j) : log2Digits j m = m.log2 := by
  induction j generalizing m with
  | zero =>
    have : m = 0 ∨ m = 1 := by simp at hm; omega
    rcases this with rfl | rfl <;> rfl
  | succ j ih =>
    rw [log2Digits, pow2_eq]
    split
    · next h =>
      have hne : m ≠ 0 := by rintro rfl; have := Nat.two_pow_pos (2 ^ j); omega
      have hq : m / 2 ^ 2 ^ j < 2 ^ 2 ^ j := by
        apply Nat.div_lt_of_lt_mul
        rwa [← Nat.pow_add, ← Nat.two_mul, ← Nat.pow_succ']
      have hq0 : m / 2 ^ 2 ^ j ≠ 0 := (Nat.div_pos h (Nat.two_pow_pos _)).ne'
      rw [ih _ hq]
      symm
      rw [Nat.log2_eq_iff hne]
      have hlo := Nat.log2_self_le hq0
      have hhi := Nat.lt_log2_self (n := m / 2 ^ 2 ^ j)
      constructor
      · rw [Nat.pow_add, Nat.mul_comm]
        exact (Nat.le_div_iff_mul_le (Nat.two_pow_pos _)).1 hlo
      · rw [Nat.add_assoc, Nat.pow_add]
        exact (Nat.div_lt_iff_lt_mul (Nat.two_pow_pos _)).1 hhi |>.trans_eq (Nat.mul_comm ..)
    · exact ih m (by omega)

theorem floorLog2_eq (m : Nat) : floorLog2 m = m.log2 := by
  rw [floorLog2, pow2_eq]
  split
  · next h => exact log2Digits_eq 12 m (h.trans_eq (congrArg (2 ^ ·) (by decide : 4096 = 2 ^ 12)))
  · rfl

/-! ### Rounding to a natural -/

/-- The rounded natural is at most half a step away, and even when it is exactly half a step away. -/
theorem roundHalfEven_spec (a : Nat) {b : Nat} (hb : 0 < b) :
    let r := roundHalfEven a b
    2 * a ≤ (2 * r + 1) * b ∧ 2 * r * b ≤ 2 * a + b ∧
      (2 * a = (2 * r + 1) * b ∨ 2 * r * b = 2 * a + b → r % 2 = 0) := by
  have hmod := Nat.mod_lt a hb
  have hdiv := Nat.div_add_mod a b
  rw [Nat.mul_comm] at hdiv
  simp only [roundHalfEven]
  generalize a / b = q at *
  generalize a % b = r at *
  have hl : ∀ x : Nat, (2 * x + 1) * b = 2 * (x * b) + b := fun x => by ring
  have hm : ∀ x : Nat, 2 * x * b = 2 * (x * b) := fun x => by ring
  have hs : (q + 1) * b = q * b + b := by ring
  split
  · rw [hl, hm]; omega
  · split
    · rw [hl, hm, hs]; omega
    · split
      · rw [hl, hm]; omega
      · rw [hl, hm, hs]; omega

/-- A quotient that is a natural is not changed. -/
theorem roundHalfEven_exact (m : Nat) {b : Nat} (hb : 0 < b) : roundHalfEven (m * b) b = m := by
  simp [roundHalfEven, Nat.mul_div_cancel _ hb, hb]

/-- Rounding keeps the order of the quotients. -/
theorem roundHalfEven_mono {a b c d : Nat} (hb : 0 < b) (hd : 0 < d) (h : a * d ≤ c * b) :
    roundHalfEven a b ≤ roundHalfEven c d := by
  obtain ⟨-, h1, e1⟩ := roundHalfEven_spec a hb
  obtain ⟨h2, -, e2⟩ := roundHalfEven_spec c hd
  generalize roundHalfEven a b = r at *
  generalize roundHalfEven c d = t at *
  by_contra hlt
  obtain ⟨r, rfl⟩ : ∃ r', r = r' + 1 := ⟨r - 1, by omega⟩
  have hbd : 0 < b * d := Nat.mul_pos hb hd
  have k1 : (2 * r + 1) * (b * d) ≤ 2 * (a * d) := by nlinarith
  have k2 : 2 * (c * b) ≤ (2 * t + 1) * (b * d) := by nlinarith
  have k3 : 2 * r + 1 ≤ 2 * t + 1 := Nat.le_of_mul_le_mul_right (by omega) hbd
  have : r = t := by omega
  subst this
  have t1 : 2 * (r + 1) * b = 2 * a + b := by
    have : 2 * a * d = (2 * r + 1) * b * d := by nlinarith
    have := Nat.eq_of_mul_eq_mul_right hd this
    rw [this]; ring
  have t2 : 2 * c = (2 * r + 1) * d := by
    have : 2 * c * b = (2 * r + 1) * d * b := by nlinarith
    exact Nat.eq_of_mul_eq_mul_right hb this
  have := e1 (.inr t1)
  have := e2 (.inl t2)
  omega

/-! ### Rounding to a magnitude -/

theorem roundMag_eq (a b : Nat) :
    roundMag a b = roundHalfEven a (b * 2 ^ ((a / b).log2 - 52)) * 2 ^ ((a / b).log2 - 52) := by
  simp only [roundMag, floorLog2_eq, pow2_eq]

/-- The rounded magnitude lies in the binade of the quotient, its upper end included. -/
theorem roundMag_le (a : Nat) {b : Nat} (hb : 0 < b) :
    roundMag a b ≤ 2 ^ (53 + ((a / b).log2 - 52)) := by
  rw [roundMag_eq]
  generalize hk : (a / b).log2 - 52 = k
  have hk' : 0 < b * 2 ^ k := Nat.mul_pos hb (Nat.two_pow_pos k)
  have hlt : a / b < 2 ^ (53 + k) :=
    (Nat.lt_log2_self (n := a / b)).trans_le (Nat.pow_le_pow_right (by omega) (by omega))
  have hle : a * 1 ≤ 2 ^ 53 * (b * 2 ^ k) := by
    have := (Nat.div_lt_iff_lt_mul hb).1 hlt
    rw [Nat.pow_add] at this
    nlinarith
  have := roundHalfEven_mono hk' Nat.one_pos hle
  rw [show roundHalfEven (2 ^ 53) 1 = 2 ^ 53 from roundHalfEven_exact (2 ^ 53) Nat.one_pos] at this
  rw [Nat.pow_add]
  exact Nat.mul_le_mul_right _ this

/-- Above 2^52 units the rounded magnitude does not fall below the binade of the quotient. -/
theorem le_roundMag {a b : Nat} (hb : 0 < b) (h : 52 < (a / b).log2) :
    2 ^ (a / b).log2 ≤ roundMag a b := by
  have hne : a / b ≠ 0 := by intro h0; simp [h0] at h
  have hlo := Nat.log2_self_le hne
  rw [roundMag_eq]
  generalize hL : (a / b).log2 = L at *
  obtain ⟨k, rfl⟩ : ∃ k, L = 52 + k := ⟨L - 52, by omega⟩
  rw [show 52 + k - 52 = k by omega]
  have hk' : 0 < b * 2 ^ k := Nat.mul_pos hb (Nat.two_pow_pos k)
  have hle : 2 ^ 52 * (b * 2 ^ k) ≤ a * 1 := by
    have := (Nat.le_div_iff_mul_le hb).1 hlo
    rw [Nat.pow_add] at this
    nlinarith
  have := roundHalfEven_mono Nat.one_pos hk' hle
  rw [show roundHalfEven (2 ^ 52) 1 = 2 ^ 52 from roundHalfEven_exact (2 ^ 52) Nat.one_pos] at this
  rw [Nat.pow_add]
  exact Nat.mul_le_mul_right _ this

/-- Rounding to a magnitude keeps the order of the quotients. -/
theorem roundMag_mono {a b c d : Nat} (hb : 0 < b) (hd : 0 < d) (h : a * d ≤ c * b) :
    roundMag a b ≤ roundMag c d := by
  have hq : a / b ≤ c / d := by
    rw [Nat.le_div_iff_mul_le hd]
    by_contra hc
    have h1 := Nat.div_mul_le_self a b
    have : c * b < a / b * d * b := Nat.mul_lt_mul_of_pos_right (not_le.mp hc) hb
    have : a / b * d * b = a / b * b * d := by ring
    have : a / b * b * d ≤ a * d := Nat.mul_le_mul_right d h1
    omega
  have hL : (a / b).log2 ≤ (c / d).log2 := by
    by_cases h0 : a / b = 0
    · simp [h0]
    · exact (Nat.le_log2 (fun hc => h0 (by simpa [hc] using hq))).2 ((Nat.log2_self_le h0).trans hq)
  rcases (Nat.sub_le_sub_right hL 52).eq_or_lt with he | hlt
  · rw [roundMag_eq, roundMag_eq, ← he]
    refine Nat.mul_le_mul_right _ (roundHalfEven_mono ?_ ?_ ?_)
    · exact Nat.mul_pos hb (Nat.two_pow_pos _)
    · exact Nat.mul_pos hd (Nat.two_pow_pos _)
    · rw [← Nat.mul_assoc, ← Nat.mul_assoc]
      exact Nat.mul_le_mul_right _ h
  · calc roundMag a b ≤ 2 ^ (53 + ((a / b).log2 - 52)) := roundMag_le a hb
      _ ≤ 2 ^ (c / d).log2 := Nat.pow_le_pow_right (by omega) (by omega)
      _ ≤ roundMag c d := le_roundMag hd (by omega)

/-- A magnitude of at most 53 significant bits is not changed. -/
theorem roundMag_exact {c k : Nat} (hc : c < 2 ^ 53) : roundMag (c * 2 ^ k) 1 = c * 2 ^ k := by
  rw [roundMag_eq, Nat.div_one, Nat.one_mul]
  by_cases h0 : c = 0
  · simp [h0, roundHalfEven]
  have hne : c * 2 ^ k ≠ 0 := by positivity
  have hlog : (c * 2 ^ k).log2 < 53 + k := by
    rw [Nat.log2_lt hne, Nat.pow_add]
    exact Nat.mul_lt_mul_of_pos_right hc (Nat.two_pow_pos k)
  obtain ⟨j, hj⟩ : ∃ j, k = ((c * 2 ^ k).log2 - 52) + j := ⟨k - ((c * 2 ^ k).log2 - 52), by omega⟩
  generalize (c * 2 ^ k).log2 - 52 = e at *
  rw [hj, Nat.pow_add, Nat.mul_comm (2 ^ e), ← Nat.mul_assoc,
    roundHalfEven_exact _ (Nat.two_pow_pos e)]

end Sys2Proof.Machine
end

