-- ==== Sys2Proof/Laws/Memory.lean ====
section
/-! SUPPORT. The streams as memory: every stream is in the canonical form (so reset's are and every
operation keeps it), equal pairs are equal streams, and a read of a stream is a read of its pairs. -/

namespace Sys2Proof.Machine

theorem cellsFrom_wfFrom (s : List Byte) (a : Nat) :
    Memory.wfFrom a (Memory.cellsFrom a s) = true := by
  induction s generalizing a with
  | nil => rfl
  | cons b bs ih => simp [Memory.cellsFrom, Memory.wfFrom, ih]

/-- Whatever an operation leaves in a stream is in the canonical form. -/
theorem cells_wf (s : List Byte) : Memory.wf (Memory.cells s) = true := cellsFrom_wfFrom s 0

theorem cellsFrom_injective (a : Nat) : Function.Injective (Memory.cellsFrom a) := by
  intro s
  induction s generalizing a with
  | nil => intro t h; cases t with
    | nil => rfl
    | cons c cs => simp [Memory.cellsFrom] at h
  | cons b bs ih => intro t h; cases t with
    | nil => simp [Memory.cellsFrom] at h
    | cons c cs =>
      simp only [Memory.cellsFrom, List.cons.injEq, Prod.mk.injEq, true_and] at h
      rw [h.1, ih (a + 1) h.2]

/-- Equal memories are equal data. -/
theorem cells_injective : Function.Injective Memory.cells := cellsFrom_injective 0

theorem mem_cellsFrom (s : List Byte) (a k : Nat) (b : Byte) :
    (a + k, b) ∈ Memory.cellsFrom a s ↔ s[k]? = some b := by
  induction s generalizing a k with
  | nil => simp [Memory.cellsFrom]
  | cons c cs ih =>
    cases k with
    | zero =>
      have below : ∀ (bs : List Byte) (m : Nat), a < m → (a, b) ∉ Memory.cellsFrom m bs := by
        intro bs
        induction bs with
        | nil => simp [Memory.cellsFrom]
        | cons d ds ihd =>
          intro m hm
          simp only [Memory.cellsFrom, List.mem_cons, Prod.mk.injEq, not_or]
          exact ⟨by omega, ihd (m + 1) (by omega)⟩
      simp [Memory.cellsFrom, below cs (a + 1) (by omega), eq_comm]
    | succ k =>
      have := ih (a + 1) k
      simp only [Memory.cellsFrom, List.mem_cons, Prod.mk.injEq, List.getElem?_cons_succ]
      rw [show a + (k + 1) = a + 1 + k by omega, this]
      constructor
      · rintro (⟨h, -⟩ | h)
        · omega
        · exact h
      · exact Or.inr

/-- Byte `k` of a stream is the byte its pairs hold at address `k`. -/
theorem mem_cells (s : List Byte) (k : Nat) (b : Byte) : (k, b) ∈ Memory.cells s ↔ s[k]? = some b := by
  simpa [Memory.cells] using mem_cellsFrom s 0 k b

/-- What a read answers: the byte, when the index lies below the length. -/
theorem read_eq_some (s : List Byte) (len k : Nat) (b : Byte) :
    Memory.read s len k = some b ↔ k < len ∧ s[k]? = some b := by
  unfold Memory.read
  split <;> simp_all

end Sys2Proof.Machine
end

