-- ==== Sys2Proof/Laws/State.lean ====
section
/-! SUPPORT. One lemma per field per update of the state, so that no proof unfolds a record update. -/

namespace Sys2Proof.Machine

/-! ### Reset -/

@[simp] theorem reset_p : State.reset.p = Packer.reset := rfl
@[simp] theorem reset_u : State.reset.u = Unpacker.reset := rfl
@[simp] theorem reset_inputs : State.reset.inputs = [] := rfl
@[simp] theorem reset_responses : State.reset.responses = [] := rfl

/-! ### A response -/

@[simp] theorem respond_p (s : State) (r : Response) : (s.respond r).p = s.p := rfl
@[simp] theorem respond_u (s : State) (r : Response) : (s.respond r).u = s.u := rfl
@[simp] theorem respond_inputs (s : State) (r : Response) : (s.respond r).inputs = s.inputs := rfl
@[simp] theorem respond_responses (s : State) (r : Response) :
    (s.respond r).responses = s.responses ++ [r] := rfl

/-! ### The reset event -/

@[simp] theorem applyReset_p (s : State) : s.applyReset.p = Packer.reset := rfl
@[simp] theorem applyReset_u (s : State) : s.applyReset.u = Unpacker.reset := rfl
@[simp] theorem applyReset_inputs (s : State) : s.applyReset.inputs = s.inputs := rfl
@[simp] theorem applyReset_responses (s : State) : s.applyReset.responses = s.responses := rfl

/-! ### A presented command -/

@[simp] theorem present_p (s : State) (c : Command) : (s.present c).p = s.p := rfl
@[simp] theorem present_u (s : State) (c : Command) : (s.present c).u = s.u := rfl
@[simp] theorem present_inputs (s : State) (c : Command) :
    (s.present c).inputs = .command c :: s.inputs := rfl
@[simp] theorem present_responses (s : State) (c : Command) :
    (s.present c).responses = s.responses := rfl

/-! ### Unit P -/

@[simp] theorem emit_cur (p : Packer) (b : Byte) : (p.emit b).cur = p.cur := rfl
@[simp] theorem emit_free (p : Packer) (b : Byte) : (p.emit b).free = p.free := rfl
@[simp] theorem emit_isOpen (p : Packer) (b : Byte) : (p.emit b).isOpen = p.isOpen := rfl
@[simp] theorem emit_cnt (p : Packer) (b : Byte) : (p.emit b).cnt = p.cnt := rfl
@[simp] theorem emit_out (p : Packer) (b : Byte) : (p.emit b).out = p.out ++ [b] := rfl

@[simp] theorem init_eq (p : Packer) : p.init = Packer.reset := rfl

@[simp] theorem flush_cur (p : Packer) : p.flush.cur = p.finish.cur := rfl
@[simp] theorem flush_free (p : Packer) : p.flush.free = p.finish.free := rfl
@[simp] theorem flush_isOpen (p : Packer) : p.flush.isOpen = false := rfl
@[simp] theorem flush_cnt (p : Packer) : p.flush.cnt = p.finish.cnt := rfl
@[simp] theorem flush_out (p : Packer) : p.flush.out = p.finish.out := rfl

/-! ### Unit U -/

@[simp] theorem start_src (n len : Nat) (bytes : List Byte) (u : Unpacker) :
    (u.start n len bytes).src = bytes := rfl
@[simp] theorem start_len (n len : Nat) (bytes : List Byte) (u : Unpacker) :
    (u.start n len bytes).len = len := rfl
@[simp] theorem start_nib (n len : Nat) (bytes : List Byte) (u : Unpacker) :
    (u.start n len bytes).nib = 0 := rfl
@[simp] theorem start_rem (n len : Nat) (bytes : List Byte) (u : Unpacker) :
    (u.start n len bytes).rem = n := rfl

end Sys2Proof.Machine
end

