-- ==== Sys2Proof/Laws/Ops.lean ====
section
/-! SUPPORT. What each shared operation can do, said once. -/

namespace Sys2Proof.Machine

/-! ### Nibbles -/

/-- The OR of two shifted nibbles is the byte with the earlier one high. -/
theorem byteOf_eq_append (hi lo : Nibble) : byteOf hi lo = hi ++ lo := by
  revert hi lo; decide

theorem byteOf_toNat (hi lo : Nibble) : (byteOf hi lo).toNat = 16 * hi.toNat + lo.toNat := by
  revert hi lo; decide

theorem byteOf_high (hi lo : Nibble) : (byteOf hi lo).extractLsb' 4 4 = hi := by
  revert hi lo; decide

theorem byteOf_low (hi lo : Nibble) : (byteOf hi lo).extractLsb' 0 4 = lo := by
  revert hi lo; decide

/-- A byte is made of its halves. -/
theorem byteOf_halves (b : Byte) : byteOf (b.extractLsb' 4 4) (b.extractLsb' 0 4) = b := by
  revert b; decide

theorem nibbleHalf_even (b : Byte) {j : Nat} (h : j % 2 = 0) : nibbleHalf b j = b.extractLsb' 4 4 :=
  if_pos h

theorem nibbleHalf_odd (b : Byte) {j : Nat} (h : j % 2 = 1) : nibbleHalf b j = b.extractLsb' 0 4 :=
  if_neg (by omega)

/-- The OR of three shifted nibbles has the first one lowest. -/
theorem codeOf_toNat (n0 n1 n2 : Nibble) :
    (codeOf n0 n1 n2).toNat = n0.toNat + 16 * n1.toNat + 256 * n2.toNat := by
  revert n0 n1 n2; decide +kernel

theorem codeNibble_toNat (v : Code) (k : Nat) : (codeNibble v k).toNat = v.toNat / 16 ^ k % 16 := by
  rw [codeNibble, BitVec.extractLsb'_toNat, Nat.shiftRight_eq_div_pow, Nat.pow_mul]

/-- A code is made of its three nibbles. -/
theorem codeOf_codeNibbles (v : Code) :
    codeOf (codeNibble v 0) (codeNibble v 1) (codeNibble v 2) = v := by
  apply BitVec.eq_of_toNat_eq
  rw [codeOf_toNat]
  simp only [codeNibble_toNat]
  have := v.isLt
  omega

/-- The three nibbles of a code that is made of three. -/
theorem codeNibbles_codeOf (n0 n1 n2 : Nibble) : codeNibbles (codeOf n0 n1 n2) = [n0, n1, n2] := by
  revert n0 n1 n2; decide +kernel

@[simp] theorem length_codeNibbles (v : Code) : (codeNibbles v).length = 3 := rfl

/-! ### Unit P -/

/-- PutNibble in state E fills the high half of an empty byte. -/
theorem putNibble_empty (x : Nibble) {p : Packer} (hf : p.free = .empty) (hc : p.cur = 0) :
    p.putNibble x = { p with cur := byteOf x 0, free := .half } := by
  simp only [Packer.putNibble, hf, hc, Fill.bits]
  congr 1
  revert x; decide

/-- PutNibble in state H fills the low half, emits the byte and clears it. -/
theorem putNibble_half (x hi : Nibble) {p : Packer} (hf : p.free = .half) (hc : p.cur = byteOf hi 0) :
    p.putNibble x = { p with cur := 0, free := .empty, out := p.out ++ [byteOf hi x] } := by
  have h : ∀ x hi : Nibble, byteOf hi 0 ||| nibbleAtBit x 0 = byteOf hi x := by decide
  simp [Packer.putNibble, hf, hc, Fill.bits, Packer.emit]
  exact h x hi

@[simp] theorem putNibble_isOpen (x : Nibble) (p : Packer) : (p.putNibble x).isOpen = p.isOpen := by
  unfold Packer.putNibble; split <;> rfl

@[simp] theorem putNibble_cnt (x : Nibble) (p : Packer) : (p.putNibble x).cnt = p.cnt := by
  unfold Packer.putNibble; split <;> rfl

/-- PutNibble never changes a byte already emitted. -/
theorem putNibble_out_prefix (x : Nibble) (p : Packer) : p.out <+: (p.putNibble x).out := by
  unfold Packer.putNibble; split <;> simp

/-- The loop of P.PUSH writes the three nibbles of the code in stream order. -/
theorem pushLoop_eq (v : Code) (p : Packer) :
    Packer.pushLoop Config.codeNibbles v p = (codeNibbles v).foldl (fun p x => p.putNibble x) p := by
  have h0 : v.extractLsb' 0 4 = codeNibble v 0 := rfl
  have h1 : (v >>> 4).extractLsb' 0 4 = codeNibble v 1 := by
    apply BitVec.eq_of_toNat_eq
    simp [codeNibble, BitVec.extractLsb'_toNat]
  have h2 : (v >>> 4 >>> 4).extractLsb' 0 4 = codeNibble v 2 := by
    apply BitVec.eq_of_toNat_eq
    simp [codeNibble, BitVec.extractLsb'_toNat]
  rw [show Config.codeNibbles = 3 from rfl]
  simp only [Packer.pushLoop, codeNibbles, List.foldl, h0, h1, h2]

/-- P.PUSH is its three PutNibbles and the count. -/
theorem push_eq (v : Code) (p : Packer) :
    p.push v = { (codeNibbles v).foldl (fun p x => p.putNibble x) p with cnt := p.cnt + 1 } := by
  rw [Packer.push, pushLoop_eq]
  simp [codeNibbles]

/-- P.PUSH from state E: one byte leaves, the top nibble waits in the high half. -/
theorem push_empty (v : Code) {p : Packer} (hf : p.free = .empty) (hc : p.cur = 0) :
    p.push v = { p with
      cur := byteOf (codeNibble v 2) 0, free := .half, cnt := p.cnt + 1,
      out := p.out ++ [byteOf (codeNibble v 0) (codeNibble v 1)] } := by
  rw [push_eq]
  simp only [codeNibbles, List.foldl]
  rw [putNibble_empty _ hf hc, putNibble_half (codeNibble v 1) (codeNibble v 0) rfl rfl,
    putNibble_empty (codeNibble v 2) rfl rfl]

/-- P.PUSH from state H: two bytes leave, nothing waits. -/
theorem push_half (v : Code) (hi : Nibble) {p : Packer} (hf : p.free = .half) (hc : p.cur = byteOf hi 0) :
    p.push v = { p with
      cur := 0, free := .empty, cnt := p.cnt + 1,
      out := p.out ++ [byteOf hi (codeNibble v 0), byteOf (codeNibble v 1) (codeNibble v 2)] } := by
  rw [push_eq]
  simp only [codeNibbles, List.foldl]
  rw [putNibble_half _ hi hf hc, putNibble_empty (codeNibble v 1) rfl rfl,
    putNibble_half (codeNibble v 2) (codeNibble v 1) rfl rfl]
  simp

@[simp] theorem push_isOpen (v : Code) (p : Packer) : (p.push v).isOpen = p.isOpen := by
  simp [push_eq, codeNibbles]

@[simp] theorem push_cnt (v : Code) (p : Packer) : (p.push v).cnt = p.cnt + 1 := by
  simp [push_eq]

/-- P.PUSH never changes a byte already emitted. -/
theorem push_out_prefix (v : Code) (p : Packer) : p.out <+: (p.push v).out := by
  rw [push_eq]
  exact ((putNibble_out_prefix _ p).trans (putNibble_out_prefix _ _)).trans (putNibble_out_prefix _ _)

/-- The emission of P.FLUSH in state E is none. -/
theorem finish_empty {p : Packer} (hf : p.free = .empty) : p.finish = p := by
  simp [Packer.finish, hf]

/-- The emission of P.FLUSH in state H. -/
theorem finish_half {p : Packer} (hf : p.free = .half) :
    p.finish = { p with cur := 0, free := .empty, out := p.out ++ [p.cur] } := by
  simp [Packer.finish, hf, Packer.emit]

@[simp] theorem finish_isOpen (p : Packer) : p.finish.isOpen = p.isOpen := by
  unfold Packer.finish; split <;> rfl

@[simp] theorem finish_cnt (p : Packer) : p.finish.cnt = p.cnt := by
  unfold Packer.finish; split <;> rfl

@[simp] theorem finish_free (p : Packer) : p.finish.free = .empty := by
  unfold Packer.finish; split <;> simp_all

/-- P.FLUSH never changes a byte already emitted. -/
theorem finish_out_prefix (p : Packer) : p.out <+: p.finish.out := by
  unfold Packer.finish; split <;> simp

/-! ### Unit U -/

/-- GetNibble where the byte exists. -/
theorem getNibble_some {u : Unpacker} {b : Byte} (hlt : u.nib / 2 < u.len)
    (hb : u.src[u.nib / 2]? = some b) :
    u.getNibble = some (nibbleHalf b u.nib, { u with nib := u.nib + 1 }) := by
  have : Memory.read u.src u.len (nibbleByte u.nib) = some b := (read_eq_some ..).2 ⟨hlt, hb⟩
  simp [Unpacker.getNibble, this]

/-- All that GetNibble can do. -/
theorem getNibble_cases {u u' : Unpacker} {x : Nibble} (h : u.getNibble = some (x, u')) :
    nibbleAt u.src u.nib = some x ∧ u' = { u with nib := u.nib + 1 } := by
  unfold Unpacker.getNibble at h
  split at h
  · cases h
  · next b hb =>
    obtain ⟨-, hb⟩ := (read_eq_some ..).1 hb
    simp only [Option.some.injEq, Prod.mk.injEq] at h
    simp [nibbleAt, hb, ← h.1, ← h.2]

/-- All that an accepted U.POP can do when it does not fault. -/
theorem pop_cases {u u' : Unpacker} {v : Code} (h : u.pop = some (v, u')) :
    ∃ n0 n1 n2, nibbleAt u.src u.nib = some n0 ∧ nibbleAt u.src (u.nib + 1) = some n1 ∧
      nibbleAt u.src (u.nib + 2) = some n2 ∧ v = codeOf n0 n1 n2 ∧
      u' = { u with nib := u.nib + 3, rem := u.rem - 1 } := by
  unfold Unpacker.pop at h
  rw [show List.range Config.codeNibbles = [0, 1, 2] from rfl] at h
  split at h
  · cases h
  · next acc w hw =>
    simp only [Unpacker.popLoop] at hw
    split at hw
    · cases hw
    · next x0 u0 h0 =>
      split at hw
      · cases hw
      · next x1 u1 h1 =>
        split at hw
        · cases hw
        · next x2 u2 h2 =>
          obtain ⟨g0, rfl⟩ := getNibble_cases h0
          obtain ⟨g1, rfl⟩ := getNibble_cases h1
          obtain ⟨g2, rfl⟩ := getNibble_cases h2
          simp only [Option.some.injEq, Prod.mk.injEq] at hw h
          obtain ⟨rfl, rfl⟩ := hw
          obtain ⟨rfl, rfl⟩ := h
          exact ⟨x0, x1, x2, g0, g1, g2, by simp [codeOf], rfl⟩

/-- U.POP where its three nibbles exist. -/
theorem pop_some {u : Unpacker} {n0 n1 n2 : Nibble} (hlt : (u.nib + 2) / 2 < u.len)
    (h0 : nibbleAt u.src u.nib = some n0) (h1 : nibbleAt u.src (u.nib + 1) = some n1)
    (h2 : nibbleAt u.src (u.nib + 2) = some n2) :
    u.pop = some (codeOf n0 n1 n2, { u with nib := u.nib + 3, rem := u.rem - 1 }) := by
  simp only [nibbleAt, nibbleByte, Option.map_eq_some_iff] at h0 h1 h2
  obtain ⟨b0, e0, rfl⟩ := h0
  obtain ⟨b1, e1, rfl⟩ := h1
  obtain ⟨b2, e2, rfl⟩ := h2
  have s0 := getNibble_some (u := u) (by omega) e0
  have s1 := getNibble_some (u := { u with nib := u.nib + 1 }) (show (u.nib + 1) / 2 < u.len by omega) e1
  have s2 := getNibble_some (u := { u with nib := u.nib + 1 + 1 }) hlt e2
  simp only [Unpacker.pop, show List.range Config.codeNibbles = [0, 1, 2] from rfl,
    Unpacker.popLoop, s0, s1, s2]
  simp [codeOf]

end Sys2Proof.Machine
end

