-- ==== Sys2Proof/Laws/PerInstr.lean ====
section
/-! SUPPORT. Facts about every instruction as syntax, one lemma per constructor. -/

namespace Sys2Proof.Laws

/-- The `op` field of an encoded instruction is the opcode table's (30_encoding.md R54). -/
def OpField.Statement (i : Instr) : Prop := (encode i).op = i.opcode

theorem OpField.quant (f : Sample) : OpField.Statement (.quant f) := op_commandWord ..
theorem OpField.dequant (v : Code) : OpField.Statement (.dequant v) := op_commandWord ..
theorem OpField.pInit : OpField.Statement .pInit := op_commandWord ..
theorem OpField.pPush (v : Code) : OpField.Statement (.pPush v) := op_commandWord ..
theorem OpField.pFlush : OpField.Statement .pFlush := op_commandWord ..
theorem OpField.uStart (n len : Nat) (bytes : List Byte) : OpField.Statement (.uStart n len bytes) :=
  op_commandWord ..
theorem OpField.uPop : OpField.Statement .uPop := op_commandWord ..

end Sys2Proof.Laws
end

