-- ==== Sys2Proof/Tests/Slice0.lean ====
section
/-! SUPPORT. Tests. Expected values are the worked examples and vectors of spec/ (named in each comment)
or read off the encoding tables by hand; the witnesses show, for every statement with hypotheses, a
state and operands that meet them. -/

namespace Sys2Proof.Tests

open Sys2Proof.Machine

/-! ### Helpers -/

/-- A state with the packer `p`, the rest as after reset. -/
def withP (p : Packer) : State := { State.reset with p := p }

/-- A state with the unpacker `u`, the rest as after reset. -/
def withU (u : Unpacker) : State := { State.reset with u := u }

/-- V-E2, V-E6: one code pushed, half a byte pending. -/
def pHalf : Packer := ⟨0x10, .half, true, 1, [0x32]⟩

/-- V-E3: the stream of one code, closed. -/
def pClosed : Packer := ⟨0x00, .empty, false, 1, [0x32, 0x10]⟩

/-- V-E7: the count at NMAX (the bytes do not matter to the check). -/
def pFull : Packer := ⟨0x00, .half, true, 4294967295, []⟩

/-- V-E10: an unpack of two codes, one of them returned. -/
def uMid : Unpacker := ⟨[0xBA, 0x0D, 0xC0], 3, 3, 1⟩

/-- A state in which the host presents `e` first. -/
def presenting (s : State) (e : HostEvent) : State := { s with inputs := [e] }

/-! ### Well-formedness: a term that each check refuses -/

theorem test_wf_accepts : (Instr.uStart 4294967295 1 [0xFF]).wf = true := by decide
theorem test_wf_count_too_wide : (Instr.uStart 4294967296 0 []).wf = false := by decide
theorem test_wf_len_too_wide : (Instr.uStart 0 4294967296 []).wf = false := by decide
theorem test_wf_bytes_differ : (Instr.uStart 1 2 [0x32]).wf = false := by decide

/-! ### Decoding: words written out from R53, R54 -/

theorem test_decode_quant : decode ⟨0x0BFE0000000000000, []⟩ = .ok (.quant 0xBFE0000000000000) := by decide
theorem test_decode_dequant : decode ⟨0x10000000000000BFF, []⟩ = .ok (.dequant 0xBFF) := by decide
theorem test_decode_dequant_ignores : decode ⟨0x1FFFFFFFFFFFFFBFF, []⟩ = .ok (.dequant 0xBFF) := by decide
theorem test_decode_pInit : decode ⟨0x40000000000000001, []⟩ = .ok .pInit := by decide
theorem test_decode_pPush : decode ⟨0x500000000000000CD, []⟩ = .ok (.pPush 0x0CD) := by decide
theorem test_decode_pFlush : decode ⟨0x60000000000000000, []⟩ = .ok .pFlush := by decide
theorem test_decode_uStart : decode ⟨0x80000000200000001, [0x32, 0x10]⟩ = .ok (.uStart 1 2 [0x32, 0x10]) := by decide
theorem test_decode_uPop : decode ⟨0x90000000000000000, []⟩ = .ok .uPop := by decide
theorem test_decode_reserved : decode ⟨0x70000000000000000, []⟩ = .error (.reservedOp 0x7) := by decide
theorem test_decode_mismatch : decode ⟨0x80000000200000001, [0x32]⟩ = .error (.byteCountMismatch 2 1) := by decide
theorem test_encode_uStart : (encode (.uStart 3 5 [0, 1, 2, 3, 4])).word = 0x80000000500000003 := by decide
theorem test_table_uStart : decodeTableWord 72 0x80000000200000001 = some (.uStart 1 2 [0, 0]) := by decide
theorem test_table_reserved : decodeTableWord 72 0x70000000000000000 = none := by decide

/-! ### The script syntax (R58) -/

theorem test_script_push : readLine "P.PUSH 0x123 ; one code -> OK".toList = some (.pPush 0x123) := by decide
theorem test_script_float : readLine "QUANT -0.1".toList = some (.quant 0xBFB999999999999A) := by decide
theorem test_script_start : readLine "U.START [BA 0D C0], 2".toList = some (.uStart 2 3 [0xBA, 0x0D, 0xC0]) := by decide
theorem test_script_bad : readLine "P.PUSH 4096".toList = none := by decide
/-- The example of R58. -/
theorem test_encoding_text : encodingText (encode (.pPush 0x123)) = "5:0000000000000123".toList := by decide

/-! ### The commands -/

/-- V-Q28: the three roundings differ from exact arithmetic. -/
theorem test_quant_rounding : quantize 0x3FD5555555555555 = some 0xAAA := by decide
/-- V-Q17: overflow to -infinity, clamped. -/
theorem test_quant_overflow : quantize 0xFFE1CCF385EBC8A0 = some 0x000 := by decide
/-- V-D6. -/
theorem test_dequant : dequantize 0x123 = 0xBFEB73B73B73B73C := by decide
/-- V-D2: the subtraction rounds below 0.25. -/
theorem test_dequant_low : dequantize 0x001 = 0xBFEFFBFFBFFBFFC0 := by decide
/-- V-E6: the pending half byte is dropped. -/
theorem test_pInit : exec .pInit (withP pHalf) = .next { State.reset with responses := [.ok 0] } := rfl
/-- R92, worked example. -/
theorem test_pPush : exec (.pPush 0x123) State.reset = .next { withP pHalf with responses := [.ok 0] } := rfl
/-- V-E7: the count at NMAX. -/
theorem test_pPush_full :
    exec (.pPush 0x000) (withP pFull) = .next { withP pFull with responses := [.error .configError] } := rfl
/-- R93, worked example. -/
theorem test_pFlush : exec .pFlush (withP pHalf) = .next { withP pClosed with responses := [.ok 0] } := rfl
/-- V-E4: already closed. -/
theorem test_pFlush_closed :
    exec .pFlush (withP pClosed) = .next { withP pClosed with responses := [.error .configError] } := rfl
/-- V-E10: too short, the unpack in progress is not disturbed. -/
theorem test_uStart_short : exec (.uStart 1 1 [0x32]) (withU uMid) =
    .next { withU uMid with responses := [.error .lengthError] } := rfl
/-- V-E11: accepted mid-stream. -/
theorem test_uStart : exec (.uStart 1 2 [0x32, 0x10]) (withU uMid) =
    .next { withU ⟨[0x32, 0x10], 2, 0, 1⟩ with responses := [.ok 0] } := rfl
/-- V-U1, second U.POP, from state H. -/
theorem test_uPop : exec .uPop (withU uMid) =
    .next { withU ⟨[0xBA, 0x0D, 0xC0], 3, 6, 0⟩ with responses := [.ok 0x0CD] } := rfl
/-- V-E9: exhausted, the pad is not read. -/
theorem test_uPop_empty : exec .uPop (withU ⟨[0x32, 0x10], 2, 3, 0⟩) =
    .next { withU ⟨[0x32, 0x10], 2, 3, 0⟩ with responses := [.error .configError] } := rfl
/-- V-E12: a reserved op at the step. -/
theorem test_step_reserved : step (presenting State.reset (.command ⟨0x70000000000000000, []⟩)) =
    .next { State.reset with responses := [.error .configError] } := rfl
/-- The first instruction after reset (R92). -/
theorem test_first_word : step (State.reset.withFetchWord 72 0x50000000000000123) =
    .next { withP pHalf with responses := [.ok 0] } := rfl
/-- V-P11. -/
theorem test_pack : pack [0x800, 0x7FF, 0x001, 0xFFE, 0x555] =
    [0x00, 0x8F, 0xF7, 0x10, 0x0E, 0xFF, 0x55, 0x50] := by decide
/-- PR3: DECODE of the three samples; the first decoded sample. -/
theorem test_decode_procedure :
    (hostDecode [0x00, 0x0F, 0xFB, 0xFF, 0x30] 3 State.reset).map (fun r => r.2.u) =
      some ⟨[0x00, 0x0F, 0xFB, 0xFF, 0x30], 5, 9, 0⟩ := by decide

/-! ### Witnesses: the hypotheses of the statements can be met -/

theorem pHalf_inv : pHalf.Inv :=
  ⟨by decide, by decide, by decide, by decide, by decide, by decide, by decide⟩
theorem pReset_inv : Packer.reset.Inv :=
  ⟨by decide, by decide, by decide, by decide, by decide, by decide, by decide⟩
theorem uMid_inv : uMid.Inv := ⟨by decide, ⟨2, by decide⟩, by decide⟩
/-- A state in the middle of both streams that meets the invariant. -/
theorem witness_inv : ({ withP pHalf with u := uMid } : State).Inv := ⟨pHalf_inv, uMid_inv⟩

theorem witness_DecodeOfEncode : (Instr.uStart 4294967295 3 [0xBA, 0x0D, 0xC0]).WellFormed := by decide
theorem witness_OperandsAreTheFieldsOfTheWord :
    (0x0FFFFFFFFFFFFFFFF : CommandWord).toNat / 2 ^ 64 = 0x0 ∧
    (0x1FFFFFFFFFFFFFFFF : CommandWord).toNat / 2 ^ 64 = 0x1 ∧
    (0x4FFFFFFFFFFFFFFFF : CommandWord).toNat / 2 ^ 64 = 0x4 ∧
    (0x5FFFFFFFFFFFFFFFF : CommandWord).toNat / 2 ^ 64 = 0x5 ∧
    (0x6FFFFFFFFFFFFFFFF : CommandWord).toNat / 2 ^ 64 = 0x6 ∧
    (0x800000001FFFFFFFF : CommandWord).toNat / 2 ^ 64 = 0x8 ∧
    [(0x32 : Byte)].length = (0x800000001FFFFFFFF : CommandWord).toNat / 2 ^ 32 % 2 ^ 32 ∧
    (0x9FFFFFFFFFFFFFFFF : CommandWord).toNat / 2 ^ 64 = 0x9 := by decide
theorem witness_ReservedOpsAnswerConfigError :
    (presenting State.reset (.command ⟨0xF0000000000000000, []⟩)).inputs = [.command ⟨0xF0000000000000000, []⟩] ∧
    (⟨0xF0000000000000000, []⟩ : Command).op ∈ reservedOps ∧
    (⟨0x9FFFFFFFFFFFFFFFF, []⟩ : Command).op ∉ reservedOps ∧
    (⟨0x80000000100000000, [7]⟩ : Command).op ∉ reservedOps ∧
    (⟨0x80000000100000000, [7]⟩ : Command).op = 0x8 ∧
    [(7 : Byte)].length = (⟨0x80000000100000000, [7]⟩ : Command).lenField := by decide
theorem witness_DecodedInstructionsAreWellFormed :
    decode ⟨0x800000001FFFFFFFF, [0x00]⟩ = .ok (.uStart 4294967295 1 [0x00]) := by decide
theorem witness_ScriptLinesReadBack : (Instr.uStart 4294967295 0 []).WellFormed := by decide
theorem witness_StepRunsTheDecodedCommand :
    (presenting State.reset (.command ⟨0x90000000000000000, []⟩)).inputs = [.command ⟨0x90000000000000000, []⟩] ∧
    decode ⟨0x90000000000000000, []⟩ = .ok .uPop := by decide
theorem witness_TableWordRunsNext : decodeTableWord 72 0x60000000000000000 = some .pFlush := by decide
theorem witness_ResetState :
    State.reset.u.rem = 0 ∧
    exec (.uStart 0 0 []) State.reset = .next (State.reset.respond (.ok 0)) ∧
    (¬ ∃ n len bytes, Instr.uStart 0 0 [] = .uStart n len bytes ∧ 1 ≤ n) ∧
    exec (.uStart 1 1 [0x32]) State.reset = .next (State.reset.respond (.error .lengthError)) ∧
    (State.reset.respond (.error .lengthError)).responses ≠ State.reset.responses ++ [.ok 0] :=
  ⟨rfl, rfl, by rintro ⟨_, _, _, h, hn⟩; cases h; omega, rfl, by decide⟩
theorem witness_StepKeepsTheInvariant :
    (presenting { withP pHalf with u := uMid } (.command ⟨0x90000000000000000, []⟩)).Inv ∧
    ∃ t, step (presenting { withP pHalf with u := uMid } (.command ⟨0x90000000000000000, []⟩)) = .next t :=
  ⟨⟨pHalf_inv, uMid_inv⟩, _, rfl⟩
theorem witness_StepNeverStops :
    (presenting { withP pHalf with u := uMid } (.command ⟨0x80000000100000000, [7]⟩)).Inv ∧
    (HostEvent.command ⟨0x80000000100000000, [7]⟩).presentable = true :=
  ⟨⟨pHalf_inv, uMid_inv⟩, by decide⟩
theorem witness_ResetEvent :
    (presenting (withP pHalf) .reset).inputs = [.reset] ∧ State.reset.inputs = [] := by decide
theorem witness_SampleWordsHaveTheirValue :
    ((0x0010000000000000 : Sample).extractLsb' 52 11).toNat = 1 ∧
    ((0xFFEFFFFFFFFFFFFF : Sample).extractLsb' 52 11).toNat = 2046 ∧
    ((0x8000000000000001 : Sample).extractLsb' 52 11).toNat = 0 ∧
    ((0xFFF0000000000000 : Sample).extractLsb' 52 11).toNat = 2047 ∧
    ((0xFFF0000000000000 : Sample).extractLsb' 0 52).toNat = 0 ∧
    ((0x7FF0000000000001 : Sample).extractLsb' 52 11).toNat = 2047 ∧
    ((0x7FF0000000000001 : Sample).extractLsb' 0 52).toNat ≠ 0 := by decide
theorem witness_SampleWordsReadBack : F64.ofWord 0x8000000000000001 = some (.fin ⟨true, 1⟩) := by decide
theorem witness_ArithmeticIsRoundedToNearestEven :
    F64.half.mag ≠ 0 ∧ (⟨true, 1⟩ : FinVal).mag ≠ 0 ∧ FinVal.toRat ⟨true, 1⟩ + FinVal.toRat ⟨false, 1⟩ = 0 :=
  ⟨by decide, by decide, by
    rw [FinVal.toRat, FinVal.toRat, ← add_div, ← Int.cast_add, show FinVal.val ⟨true, 1⟩ + FinVal.val ⟨false, 1⟩ = 0 by decide,
      Int.cast_zero, zero_div]⟩
/-- V-Q22, V-Q15, V-Q2, V-Q6: a NaN, and an operand for each branch. -/
theorem witness_QuantEvaluatesTheFormula :
    isNaN 0xFFF8000000000000 ∧ ¬ isNaN 0xBFF8000000000000 ∧
    (F64.ofWord 0xBFF8000000000000).map (fun x => (quantT3 x).lt (.fin ⟨false, 0⟩)) = some true ∧
    (F64.ofWord 0x3FF0000000000000).map (fun x => F64.le (.fin (F64.ofNat 4095)) (quantT3 x)) = some true ∧
    (F64.ofWord 0xBFE0000000000000).map (fun x => (quantT3 x).lt (.fin ⟨false, 0⟩)) = some false ∧
    (F64.ofWord 0xBFE0000000000000).map (fun x => F64.le (.fin (F64.ofNat 4095)) (quantT3 x)) = some false :=
  ⟨⟨by decide, by decide⟩, fun h => absurd h.1 (by decide), by decide, by decide, by decide, by decide⟩
theorem witness_QuantOfNaNIsTheOnlyRangeError :
    isNaN 0x7FF0000000000001 ∧
    completes (.quant 0x7FF0000000000001) State.reset (.error .rangeError)
      (State.reset.respond (.error .rangeError)) :=
  ⟨⟨by decide, by decide⟩, rfl, rfl⟩
/-- V-Q13 and V-Q12: the operands next to -1.0 and 1.0, and the infinities. -/
theorem witness_QuantClamps :
    (F64.ofWord 0xBFF0000000000001).map (fun x => x.lt (.fin ⟨true, F64.one⟩)) = some true ∧
    (F64.ofWord 0x3FF0000000000001).map (fun x => F64.lt (.fin ⟨false, F64.one⟩) x) = some true ∧
    (F64.ofWord 0xFFF0000000000000).map (fun x => (quantT3 x).lt (.fin ⟨false, 0⟩)) = some true ∧
    (F64.ofWord 0x7FF0000000000000).map (fun x => F64.le (.fin (F64.ofNat 4095)) (quantT3 x)) = some true := by
  decide
theorem witness_QuantIsMonotone :
    F64.ofWord 0xFFF0000000000000 = some (.inf true) ∧ F64.ofWord 0x0000000000000001 = some (.fin ⟨false, 1⟩) ∧
    F64.le (.inf true) (.fin ⟨false, 1⟩) = true := by decide
/-- The ends of the range, 1.0 and -1.0. -/
theorem witness_QuantizationError :
    F64.ofWord 0x3FF0000000000000 = some (.fin ⟨false, pow2 1074⟩) ∧
    F64.ofWord 0xBFF0000000000000 = some (.fin ⟨true, pow2 1074⟩) ∧
    FinVal.toRat ⟨false, pow2 1074⟩ = 1 ∧ FinVal.toRat ⟨true, pow2 1074⟩ = -1 := by
  refine ⟨by decide, by decide, ?_, ?_⟩ <;>
    simp only [FinVal.toRat, FinVal.val, pow2_eq, Nat.cast_pow, Int.cast_pow, Int.cast_neg, Nat.cast_ofNat,
      Int.cast_ofNat, if_true, if_false, Bool.false_eq_true, neg_div,
      div_self (pow_ne_zero 1074 (two_ne_zero' ℚ))]
theorem witness_PutNibbleFillsTheNextHalf :
    Packer.reset.free = .empty ∧ Packer.reset.cur = 0x00 ∧ pHalf.free = .half ∧
    pHalf.cur = (0x1#4 ++ 0#4 : Byte) := by decide
/-- A closed stream; a full count; one push below NMAX in state E; a pending half byte. -/
theorem witness_PushWritesThreeNibbles :
    pClosed.isOpen = false ∧ pFull.cnt = Config.nmax ∧
    (⟨0x00, .empty, true, 4294967294, []⟩ : Packer).cnt ≠ Config.nmax ∧
    pHalf.isOpen = true ∧ pHalf.cnt ≠ Config.nmax ∧ pHalf.free = .half ∧
    pHalf.cur = (0x1#4 ++ 0#4 : Byte) := by decide
theorem witness_FlushPadsAndCloses :
    pClosed.isOpen = false ∧ Packer.reset.isOpen = true ∧ Packer.reset.free = .empty ∧
    pHalf.isOpen = true ∧ pHalf.free = .half ∧ (withP pHalf).p.Inv :=
  ⟨by decide, by decide, by decide, by decide, by decide, pHalf_inv⟩
theorem witness_CountNeverWraps : ∃ t, exec (.pPush 0xFFF) (withP pHalf) = .next t := ⟨_, rfl⟩
theorem witness_EmittedBytesAreFinal :
    (∃ t, step (presenting (withP pHalf) (.command ⟨0x60000000000000000, []⟩)) = .next t) ∧
    (∀ rest, (presenting (withP pHalf) (.command ⟨0x60000000000000000, []⟩)).inputs ≠ .reset :: rest) ∧
    (∀ c rest, (presenting (withP pHalf) (.command ⟨0x60000000000000000, []⟩)).inputs = .command c :: rest →
      decode c ≠ .ok .pInit) ∧ 0 < pHalf.out.length :=
  ⟨⟨_, rfl⟩, fun _ => by simp [presenting],
    fun c rest h => by simp only [presenting, List.cons.injEq, HostEvent.command.injEq] at h; rw [← h.1]; decide,
    by decide⟩
theorem witness_BytesEmittedPerCommand :
    pHalf.Inv ∧ (∃ t, completes (.pPush 0x001) (withP pHalf) (.ok 0) t) ∧
    (∃ t, completes .pFlush (withP pHalf) (.ok 0) t) ∧ Packer.reset.Inv ∧
    (∃ t, completes (.pPush 0x001) State.reset (.ok 0) t) ∧ (∃ t, completes .pFlush State.reset (.ok 0) t) :=
  ⟨pHalf_inv, ⟨_, rfl, rfl⟩, ⟨_, rfl, rfl⟩, pReset_inv, ⟨_, rfl, rfl⟩, ⟨_, rfl, rfl⟩⟩
theorem witness_PackRunsOnTheBlock : ([0x0AB, 0x0CD, 0x123] : List Code).length ≤ Config.nmax := by decide
/-- The last byte of an odd count. -/
theorem witness_PackClosedForm : 1 < (3 * ([0x123] : List Code).length + 1) / 2 := by decide
theorem witness_PackLength : ([0x123] : List Code).length % 2 = 1 := by decide
theorem witness_PackAppend : ([0x0AB, 0x0CD] : List Code).length % 2 = 0 := by decide
/-- The last nibble of a stream and the first that does not exist. -/
theorem witness_NibbleAddressing :
    3 < 2 * ([0x32, 0x10] : List Byte).length ∧ 2 * ([0x32, 0x10] : List Byte).length ≤ 4 := by decide
/-- A count above NMAX; then NMAX with one byte less, one more and exactly the bytes it needs. -/
theorem witness_StartChecksAndCaptures :
    Config.nmax < 4294967296 ∧ (4294967295 ≤ Config.nmax ∧ 6442450942 < (3 * 4294967295 + 1) / 2) ∧
    (3 * 4294967295 + 1) / 2 < 6442450944 ∧ 6442450943 = (3 * 4294967295 + 1) / 2 := by decide
theorem witness_PopReturnsTheNextCode : Unpacker.reset.rem = 0 ∧ uMid.Inv ∧ uMid.rem ≠ 0 :=
  ⟨rfl, uMid_inv, by decide⟩
/-- V-U11, V-U18, V-U1: too short, too long, exactly enough for two codes. -/
theorem witness_UnpackSucceedsOrFailsAtTheStart :
    2 ≤ Config.nmax ∧ ([0xBA, 0x0D] : List Byte).length < (3 * 2 + 1) / 2 ∧
    (3 * 2 + 1) / 2 < ([0xBA, 0x0D, 0xC0, 0x00] : List Byte).length ∧ Config.nmax < 4294967296 ∧
    ([0xBA, 0x0D, 0xC0] : List Byte).length = (3 * 2 + 1) / 2 := by decide
/-- V-U2. -/
theorem witness_UnpackClosedForm : ∃ t, hostUnpack [0x32, 0x10] 1 State.reset = some (.ok [0x123], t) :=
  ⟨_, rfl⟩
/-- V-U3: the pad nibble F. -/
theorem witness_UnpackIgnoresThePad :
    (∃ t, hostUnpack ([0x32] ++ [(0x1#4 ++ 0xF#4 : Byte)]) 1 State.reset = some (.ok [0x123], t)) ∧
    ([0x32] ++ [(0x1#4 ++ 0xF#4 : Byte)]).length = (3 * 1 + 1) / 2 := ⟨⟨_, rfl⟩, rfl⟩
theorem witness_UnpackOfPack : ([0x123] : List Code).length ≤ Config.nmax := by decide
theorem witness_PackOfUnpack :
    (∃ t, hostUnpack [0xBA, 0x0D, 0xC0] 2 State.reset = some (.ok [0x0AB, 0x0CD], t)) ∧
    (∃ t, hostUnpack [0x32, 0x1F] 1 State.reset = some (.ok [0x123], t)) := ⟨⟨_, rfl⟩, ⟨_, rfl⟩⟩
/-- A fitting length; a fitting count; V-U19: length 4 with counts 2 and 3. -/
theorem witness_LengthDeterminesTheCount :
    (∃ t, completes (.uStart 2 3 [0xBA, 0x0D, 0xC0]) State.reset (.ok 0) t) ∧
    (5 % 3 ≠ 1 ∧ 3 = 2 * 5 / 3 ∧ 3 ≤ Config.nmax) ∧ (4 % 3 = 1 ∧ 2 * (4 / 3) < 3 ∧ ¬ 2 * (4 / 3) < 2) :=
  ⟨⟨_, rfl, rfl⟩, by decide, by decide⟩
theorem witness_CursorOnlyAdvances :
    (∃ t, exec .uPop (withU uMid) = .next t) ∧
    (withU uMid).u.Inv ∧ (withU uMid).u.len = streamBytes 2 ∧ (withU uMid).u.rem = 1 ∧
    (∃ t, completes .uPop (withU uMid) (.ok 0x0CD) t) ∧
    Unpacker.reset.Inv ∧ Unpacker.reset.len = streamBytes 0 ∧ Unpacker.reset.rem = 0 :=
  ⟨⟨_, rfl⟩, uMid_inv, rfl, rfl, ⟨_, rfl, rfl⟩,
    ⟨rfl, ⟨0, by decide, rfl, rfl⟩, by decide⟩, rfl, rfl⟩
theorem witness_NibbleStepsToggleTheState :
    (∃ x u', uMid.getNibble = some (x, u')) ∧ (∃ t, completes (.pPush 0x001) (withP pHalf) (.ok 0) t) ∧
    (∃ t, completes .uPop (withU uMid) (.ok 0x0CD) t) := ⟨⟨_, _, rfl⟩, ⟨_, rfl, rfl⟩, ⟨_, rfl, rfl⟩⟩
/-- One command for each error, and one that succeeds. -/
theorem witness_ErrorsHaveTheirCauses :
    (∃ t, answers ⟨0x07FF8000000000000, []⟩
      (presenting State.reset (.command ⟨0x07FF8000000000000, []⟩)) (.error .rangeError) t) ∧
    (∃ t, answers ⟨0x80000000100000001, [0x32]⟩
      (presenting State.reset (.command ⟨0x80000000100000001, [0x32]⟩)) (.error .lengthError) t) ∧
    (∃ t, answers ⟨0x90000000000000000, []⟩
      (presenting State.reset (.command ⟨0x90000000000000000, []⟩)) (.error .configError) t) ∧
    (∃ t, answers ⟨0x40000000000000000, []⟩
      (presenting State.reset (.command ⟨0x40000000000000000, []⟩)) (.ok 0) t) :=
  ⟨⟨_, ⟨_, rfl⟩, rfl, rfl⟩, ⟨_, ⟨_, rfl⟩, rfl, rfl⟩, ⟨_, ⟨_, rfl⟩, rfl, rfl⟩, ⟨_, ⟨_, rfl⟩, rfl, rfl⟩⟩
theorem witness_ErrorsLeaveTheStateAsItWas :
    ∃ t, answers ⟨0x60000000000000000, []⟩
      (presenting (withP pClosed) (.command ⟨0x60000000000000000, []⟩)) (.error .configError) t :=
  ⟨_, ⟨_, rfl⟩, rfl, rfl⟩
theorem witness_ErrorsAreNotSticky :
    (∃ t, completes .pFlush (withP pClosed) (.error .configError) t) ∧
    (∃ t, completes .pInit (withP pClosed) (.ok 0) t) := ⟨⟨_, rfl, rfl⟩, ⟨_, rfl, rfl⟩⟩
theorem witness_OneResponsePerCommand :
    (∃ t, step (presenting (withU uMid) (.command ⟨0x90000000000000000, []⟩)) = .next t) ∧
    (∃ t, completes .uPop (withU uMid) (.ok 0x0CD) t) := ⟨⟨_, rfl⟩, ⟨_, rfl, rfl⟩⟩
theorem witness_UnitsShareNoState :
    (∃ t, completes (.pPush 0x001) (withP pHalf) (.ok 0) t) ∧
    ({ withP pHalf with u := uMid } : State).p = (withP pHalf).p ∧
    (∃ t, completes .uPop (withU uMid) (.ok 0x0CD) t) ∧
    ({ withU uMid with p := pHalf } : State).u = (withU uMid).u ∧
    (∃ t, completes (.dequant 0) (withU uMid) (.ok (dequantize 0)) t) :=
  ⟨⟨_, rfl, rfl⟩, rfl, ⟨_, rfl, rfl⟩, rfl, ⟨_, rfl, rfl⟩⟩
theorem witness_UnitsCommute :
    unitOf (.pPush 0x001) ≠ unitOf .uPop ∧
    ∃ s1 s2, completes (.pPush 0x001) { withP pHalf with u := uMid } (.ok 0) s1 ∧
      completes .uPop s1 (.ok 0x0CD) s2 := ⟨by decide, _, _, ⟨rfl, rfl⟩, ⟨rfl, rfl⟩⟩
theorem witness_FramesOfTheCommands :
    (∃ t, exec (.pPush 0x001) (withP pHalf) = .next t) ∧ (∃ t, exec .uPop (withU uMid) = .next t) ∧
    0 < pHalf.out.length := ⟨⟨_, rfl⟩, ⟨_, rfl⟩, by decide⟩
/-- PR1: the samples 0.0 and 1.0; and a NaN among samples. -/
theorem witness_EncodeQuantizesThenPacks :
    ([0x0000000000000000, 0x3FF0000000000000] : List Sample).map quantize =
      ([0x7FF, 0xFFF] : List Code).map some ∧ ([0x7FF, 0xFFF] : List Code).length ≤ Config.nmax ∧
    (∃ f ∈ ([0x0000000000000000, 0x7FF8000000000000] : List Sample), isNaN f) :=
  ⟨by decide, by decide, 0x7FF8000000000000, by simp, by decide, by decide⟩
theorem witness_DecodeUnpacksThenDequantizes : ([0x0AB] : List Code).length ≤ Config.nmax := by decide

end Sys2Proof.Tests
end

/-! # The state, reset and the invariant (10_state.md)

First what the checks and each command can do, once for every command; then what a command reads and
leaves unchanged (R10); then the invariant of command boundaries (R26), one lemma for every state
operation; at the end the obligations. -/

namespace Sys2Proof.Machine

/-! ### What the checks answer -/

theorem pushCheck_eq_none_iff (p : Packer) :
    p.pushCheck = none ↔ p.isOpen = true ∧ p.cnt ≠ Config.nmax := by
  unfold Packer.pushCheck
  split
  · next hclosed => simp [hclosed]
  · next hopen => simpa using fun _ => hopen

theorem pushCheck_eq_some_iff (p : Packer) (e : Err) :
    p.pushCheck = some e ↔ e = .configError ∧ (p.isOpen = false ∨ p.cnt = Config.nmax) := by
  unfold Packer.pushCheck
  split
  · next hclosed => simp [hclosed, @eq_comm Err]
  · next hopen =>
    split
    · next hfull => simp [hfull, @eq_comm Err]
    · next hcnt => simp [hopen, hcnt]

theorem flushCheck_eq_none_iff (p : Packer) : p.flushCheck = none ↔ p.isOpen = true := by
  simp [Packer.flushCheck]

theorem flushCheck_eq_some_iff (p : Packer) (e : Err) :
    p.flushCheck = some e ↔ e = .configError ∧ p.isOpen = false := by
  simp [Packer.flushCheck, and_comm, @eq_comm Err]

theorem startCheck_eq_none_iff (n len : Nat) :
    startCheck n len = none ↔ n ≤ Config.nmax ∧ len = streamBytes n := by
  unfold startCheck
  split
  · simp; omega
  · split
    · simp; omega
    · split <;> simp <;> omega

theorem popCheck_eq_none_iff (u : Unpacker) : u.popCheck = none ↔ u.rem ≠ 0 := by
  simp [Unpacker.popCheck]

theorem popCheck_eq_some_iff (u : Unpacker) (e : Err) :
    u.popCheck = some e ↔ e = .configError ∧ u.rem = 0 := by
  simp [Unpacker.popCheck, and_comm, @eq_comm Err]

/-! ### What each command does -/

/-- The response of QUANT, a function of its operand (40_quantizer.md R71, R73). -/
def quantResponse (f : Sample) : Response :=
  match quantize f with
  | none => .error .rangeError
  | some q => .ok (codeResult q)

theorem exec_quant (f : Sample) (s : State) :
    exec (.quant f) s = .next (s.respond (quantResponse f)) := by
  simp only [exec, execQuant, quantResponse]
  cases quantize f <;> rfl

theorem exec_dequant (v : Code) (s : State) :
    exec (.dequant v) s = .next (s.respond (.ok (dequantize v))) := rfl

theorem exec_pInit (s : State) :
    exec .pInit s = .next (State.respond { s with p := Packer.reset } (.ok 0)) := rfl

theorem exec_pPush_accepted (v : Code) {s : State} (h : s.p.pushCheck = none) :
    exec (.pPush v) s = .next (State.respond { s with p := s.p.push v } (.ok 0)) := by
  simp only [exec, execPPush, h]; rfl

theorem exec_pPush_refused (v : Code) {s : State} {e : Err} (h : s.p.pushCheck = some e) :
    exec (.pPush v) s = .next (s.respond (.error e)) := by
  simp only [exec, execPPush, h]; rfl

theorem exec_pFlush_accepted {s : State} (h : s.p.flushCheck = none) :
    exec .pFlush s = .next (State.respond { s with p := s.p.flush } (.ok 0)) := by
  simp only [exec, execPFlush, h]; rfl

theorem exec_pFlush_refused {s : State} {e : Err} (h : s.p.flushCheck = some e) :
    exec .pFlush s = .next (s.respond (.error e)) := by
  simp only [exec, execPFlush, h]; rfl

theorem exec_uStart_accepted {n len : Nat} (bytes : List Byte) (s : State)
    (h : startCheck n len = none) :
    exec (.uStart n len bytes) s =
      .next (State.respond { s with u := s.u.start n len bytes } (.ok 0)) := by
  simp only [exec, execUStart, h]; rfl

theorem exec_uStart_refused {n len : Nat} (bytes : List Byte) (s : State) {e : Err}
    (h : startCheck n len = some e) :
    exec (.uStart n len bytes) s = .next (s.respond (.error e)) := by
  simp only [exec, execUStart, h]; rfl

theorem exec_uPop_refused {s : State} {e : Err} (h : s.u.popCheck = some e) :
    exec .uPop s = .next (s.respond (.error e)) := by
  simp only [exec, execUPop, h]; rfl

theorem exec_uPop_faults {s : State} (hc : s.u.popCheck = none) (h : s.u.pop = none) :
    exec .uPop s = .fault .streamBounds := by
  simp only [exec, execUPop, hc, h]

theorem exec_uPop_accepted {s : State} {v : Code} {u' : Unpacker} (hc : s.u.popCheck = none)
    (h : s.u.pop = some (v, u')) :
    exec .uPop s = .next (State.respond { s with u := u' } (.ok (codeResult v))) := by
  simp only [exec, execUPop, hc, h]; rfl

/-! ### All that a command which can be refused can do -/

theorem exec_pPush_cases {v : Code} {s t : State} (h : exec (.pPush v) s = .next t) :
    (s.p.isOpen = true ∧ s.p.cnt ≠ Config.nmax ∧
      t = State.respond { s with p := s.p.push v } (.ok 0)) ∨
    ((s.p.isOpen = false ∨ s.p.cnt = Config.nmax) ∧ t = s.respond (.error .configError)) := by
  cases hc : s.p.pushCheck with
  | none =>
    rw [exec_pPush_accepted v hc] at h
    obtain ⟨hopen, hcnt⟩ := (pushCheck_eq_none_iff _).1 hc
    cases h
    exact .inl ⟨hopen, hcnt, rfl⟩
  | some e =>
    rw [exec_pPush_refused v hc] at h
    obtain ⟨rfl, hcause⟩ := (pushCheck_eq_some_iff _ _).1 hc
    cases h
    exact .inr ⟨hcause, rfl⟩

theorem exec_pFlush_cases {s t : State} (h : exec .pFlush s = .next t) :
    (s.p.isOpen = true ∧ t = State.respond { s with p := s.p.flush } (.ok 0)) ∨
    (s.p.isOpen = false ∧ t = s.respond (.error .configError)) := by
  cases hc : s.p.flushCheck with
  | none =>
    rw [exec_pFlush_accepted hc] at h
    cases h
    exact .inl ⟨(flushCheck_eq_none_iff _).1 hc, rfl⟩
  | some e =>
    rw [exec_pFlush_refused hc] at h
    obtain ⟨rfl, hclosed⟩ := (flushCheck_eq_some_iff _ _).1 hc
    cases h
    exact .inr ⟨hclosed, rfl⟩

theorem exec_uStart_cases {n len : Nat} {bytes : List Byte} {s t : State}
    (h : exec (.uStart n len bytes) s = .next t) :
    (n ≤ Config.nmax ∧ len = streamBytes n ∧
      t = State.respond { s with u := s.u.start n len bytes } (.ok 0)) ∨
    (∃ e, startCheck n len = some e ∧ t = s.respond (.error e)) := by
  cases hc : startCheck n len with
  | none =>
    rw [exec_uStart_accepted bytes s hc] at h
    obtain ⟨hn, hlen⟩ := (startCheck_eq_none_iff _ _).1 hc
    cases h
    exact .inl ⟨hn, hlen, rfl⟩
  | some e =>
    rw [exec_uStart_refused bytes s hc] at h
    cases h
    exact .inr ⟨e, rfl, rfl⟩

theorem exec_uPop_cases {s t : State} (h : exec .uPop s = .next t) :
    (s.u.rem ≠ 0 ∧ ∃ v, t = State.respond
      { s with u := { s.u with nib := s.u.nib + 3, rem := s.u.rem - 1 } } (.ok (codeResult v))) ∨
    (s.u.rem = 0 ∧ t = s.respond (.error .configError)) := by
  cases hc : s.u.popCheck with
  | none =>
    cases hp : s.u.pop with
    | none => rw [exec_uPop_faults hc hp] at h; cases h
    | some r =>
      obtain ⟨v, u'⟩ := r
      rw [exec_uPop_accepted hc hp] at h
      obtain ⟨-, -, -, -, -, -, -, rfl⟩ := pop_cases hp
      cases h
      exact .inl ⟨(popCheck_eq_none_iff _).1 hc, v, rfl⟩
  | some e =>
    rw [exec_uPop_refused hc] at h
    obtain ⟨rfl, hrem⟩ := (popCheck_eq_some_iff _ _).1 hc
    cases h
    exact .inr ⟨hrem, rfl⟩

/-! ### What a command reads: its operands and its own unit (R10, R11) -/

/-- A command to unit Q answers with one response, whatever the state. -/
theorem exec_unitQ {i : Instr} (hu : unitOf i = .q) :
    ∃ r, ∀ s : State, exec i s = .next (s.respond r) := by
  cases i with
  | quant f => exact ⟨_, exec_quant f⟩
  | dequant v => exact ⟨_, exec_dequant v⟩
  | _ => cases hu

/-- A command to unit P answers with a response and a new unit P that the old unit P determines. -/
theorem exec_unitP {i : Instr} (hu : unitOf i = .p) (p : Packer) :
    ∃ r p', ∀ s : State, s.p = p → exec i s = .next (State.respond { s with p := p' } r) := by
  cases i with
  | pInit => exact ⟨_, _, fun s _ => exec_pInit s⟩
  | pPush v =>
    cases hc : p.pushCheck with
    | none => exact ⟨_, p.push v, by rintro s rfl; exact exec_pPush_accepted v hc⟩
    | some e => exact ⟨_, p, by rintro s rfl; exact exec_pPush_refused v hc⟩
  | pFlush =>
    cases hc : p.flushCheck with
    | none => exact ⟨_, p.flush, by rintro s rfl; exact exec_pFlush_accepted hc⟩
    | some e => exact ⟨_, p, by rintro s rfl; exact exec_pFlush_refused hc⟩
  | _ => cases hu

/-- A command to unit U faults or answers, and unit U alone determines which, the response and the new
unit U. -/
theorem exec_unitU {i : Instr} (hu : unitOf i = .u) (u : Unpacker) :
    (∃ r u', ∀ s : State, s.u = u → exec i s = .next (State.respond { s with u := u' } r)) ∨
    (∀ s : State, s.u = u → exec i s = .fault .streamBounds) := by
  cases i with
  | uStart n len bytes =>
    cases hc : startCheck n len with
    | none => exact .inl ⟨_, u.start n len bytes, by rintro s rfl; exact exec_uStart_accepted bytes s hc⟩
    | some e => exact .inl ⟨_, u, by rintro s rfl; exact exec_uStart_refused bytes s hc⟩
  | uPop =>
    cases hc : u.popCheck with
    | none =>
      cases hp : u.pop with
      | none => exact .inr (by rintro s rfl; exact exec_uPop_faults hc hp)
      | some r => exact .inl ⟨_, r.2, by rintro s rfl; exact exec_uPop_accepted hc hp⟩
    | some e => exact .inl ⟨_, u, by rintro s rfl; exact exec_uPop_refused hc⟩
  | _ => cases hu

/-! ### What every command leaves unchanged -/

/-- A command that answers adds one response, leaves what is presented, and leaves every unit but its
own. -/
theorem exec_frame {i : Instr} {s t : State} (h : exec i s = .next t) :
    t.inputs = s.inputs ∧ (∃ r, t.responses = s.responses ++ [r]) ∧
    (unitOf i ≠ .p → t.p = s.p) ∧ (unitOf i ≠ .u → t.u = s.u) := by
  cases hu : unitOf i with
  | q =>
    obtain ⟨r, hr⟩ := exec_unitQ hu
    cases (hr s).symm.trans h
    exact ⟨rfl, ⟨r, rfl⟩, fun _ => rfl, fun _ => rfl⟩
  | p =>
    obtain ⟨r, p', hr⟩ := exec_unitP hu s.p
    cases (hr s rfl).symm.trans h
    exact ⟨rfl, ⟨r, rfl⟩, fun hn => absurd rfl hn, fun _ => rfl⟩
  | u =>
    obtain ⟨r, u', hr⟩ | hf := exec_unitU hu s.u
    · cases (hr s rfl).symm.trans h
      exact ⟨rfl, ⟨r, rfl⟩, fun _ => rfl, fun hn => absurd rfl hn⟩
    · cases (hf s rfl).symm.trans h

theorem exec_keeps_p {i : Instr} {s t : State} (h : exec i s = .next t) (hu : unitOf i ≠ .p) :
    t.p = s.p := (exec_frame h).2.2.1 hu

theorem exec_keeps_u {i : Instr} {s t : State} (h : exec i s = .next t) (hu : unitOf i ≠ .u) :
    t.u = s.u := (exec_frame h).2.2.2 hu

/-- Where the outcome of a command is known, so are the response and the state it completes with. -/
theorem completes_of_exec {i : Instr} {s s' t : State} {r r' : Response}
    (hx : exec i s = .next (s'.respond r')) (hs : s'.responses = s.responses)
    (h : completes i s r t) : r = r' ∧ t = s'.respond r' := by
  obtain ⟨he, hr⟩ := h
  cases hx.symm.trans he
  simp only [respond_responses, hs, List.append_cancel_left_eq, List.cons.injEq, and_true] at hr
  exact ⟨hr.symm, rfl⟩

/-- A byte below the length of a list is the same in every list that continues it. -/
theorem getElem?_of_continues {l l' : List Byte} (h : l <+: l') {k : Nat} (hk : k < l.length) :
    l'[k]? = l[k]? := by
  rw [List.prefix_iff_getElem?.1 h k hk, List.getElem?_eq_getElem hk]

/-! ### The two states E and H (10_state.md section 4, R24) -/

/-- The other of the states E and H. -/
def Fill.other : Fill → Fill
  | .empty => .half
  | .half => .empty

@[simp] theorem Fill.other_other (f : Fill) : f.other.other = f := by cases f <;> rfl

theorem Fill.other_ne (f : Fill) : f.other ≠ f := by cases f <;> decide

@[simp] theorem putNibble_free (x : Nibble) (p : Packer) : (p.putNibble x).free = p.free.other := by
  unfold Packer.putNibble
  split <;> simp_all [Fill.other]

/-- Three nibble steps toggle the state as one does. -/
@[simp] theorem push_free (v : Code) (p : Packer) : (p.push v).free = p.free.other := by
  simp [push_eq, codeNibbles]

/-! ### The invariant of command boundaries (R26), operation by operation -/

theorem Packer.reset_inv : Packer.reset.Inv where
  curEmpty _ := rfl
  curHalf h := nomatch h
  closed h := nomatch h
  parity _ := by decide
  lenOpen _ := rfl
  lenClosed h := nomatch h
  cntMax := Nat.zero_le _

theorem Unpacker.reset_inv : Unpacker.reset.Inv where
  lenSrc := rfl
  count := ⟨0, by decide⟩
  lenMax := by decide

theorem State.reset_inv : State.reset.Inv := ⟨Packer.reset_inv, Unpacker.reset_inv⟩

/-- In state H the byte being filled is the pending nibble with a zero low half. -/
theorem Packer.Inv.cur_half {p : Packer} (hi : p.Inv) (hf : p.free = .half) :
    p.cur = byteOf (p.cur.extractLsb' 4 4) 0 := by
  conv_lhs => rw [← byteOf_halves p.cur, hi.curHalf hf]

/-- P.PUSH keeps the invariant: from an even count one byte leaves, from an odd count two. -/
theorem Packer.push_inv {p : Packer} (v : Code) (hi : p.Inv) (hopen : p.isOpen = true)
    (hcnt : p.cnt ≠ Config.nmax) : (p.push v).Inv := by
  have hpar := hi.parity hopen
  have hlen := hi.lenOpen hopen
  have hmax := hi.cntMax
  cases hf : p.free with
  | empty =>
    have heven : p.cnt % 2 = 0 := hpar.1 hf
    rw [push_empty v hf (hi.curEmpty hf)]
    constructor <;> simp [hopen, byteOf_low] <;> omega
  | half =>
    have hodd : p.cnt % 2 ≠ 0 := fun h => nomatch hf.symm.trans (hpar.2 h)
    rw [push_half v _ hf (hi.cur_half hf)]
    constructor <;> simp [hopen] <;> omega

/-- P.FLUSH keeps the invariant: the pending half byte of an odd count leaves. -/
theorem Packer.flush_inv {p : Packer} (hi : p.Inv) (hopen : p.isOpen = true) : p.flush.Inv := by
  have hpar := hi.parity hopen
  have hlen := hi.lenOpen hopen
  have hmax := hi.cntMax
  cases hf : p.free with
  | empty =>
    have heven : p.cnt % 2 = 0 := hpar.1 hf
    have hcur := hi.curEmpty hf
    constructor <;> simp [finish_empty hf, hf, hcur] <;> omega
  | half =>
    have hodd : p.cnt % 2 ≠ 0 := fun h => nomatch hf.symm.trans (hpar.2 h)
    constructor <;> simp [finish_half hf] <;> omega

/-- U.START keeps the invariant where its checks pass. -/
theorem Unpacker.start_inv {n len : Nat} {bytes : List Byte} (u : Unpacker)
    (hwf : (Instr.uStart n len bytes).WellFormed) (hn : n ≤ Config.nmax)
    (hlen : len = streamBytes n) : (u.start n len bytes).Inv := by
  simp only [Instr.WellFormed, Instr.wf, Bool.and_eq_true, decide_eq_true_eq] at hwf
  obtain ⟨⟨-, hmax⟩, hbytes⟩ := hwf
  exact ⟨hbytes.symm, ⟨n, hn, by simp, hlen.symm⟩, hmax⟩

/-- U.POP keeps the invariant: the cursor moves by the three nibbles of the code counted down. -/
theorem Unpacker.pop_inv {u : Unpacker} (hi : u.Inv) (hrem : u.rem ≠ 0) :
    Unpacker.Inv { u with nib := u.nib + 3, rem := u.rem - 1 } := by
  obtain ⟨n, hn, hcursor, hlen⟩ := hi.count
  exact ⟨hi.lenSrc, ⟨n, hn, by simp only; omega, hlen⟩, hi.lenMax⟩

/-- Every command that can be presented keeps the invariant. -/
theorem exec_keeps_inv {i : Instr} {s t : State} (hwf : i.WellFormed) (hi : s.Inv)
    (h : exec i s = .next t) : t.Inv := by
  cases i with
  | quant f => cases (exec_quant f s).symm.trans h; exact ⟨hi.p, hi.u⟩
  | dequant v => cases h; exact ⟨hi.p, hi.u⟩
  | pInit => cases h; exact ⟨Packer.reset_inv, hi.u⟩
  | pPush v =>
    obtain ⟨hopen, hcnt, rfl⟩ | ⟨-, rfl⟩ := exec_pPush_cases h
    · exact ⟨Packer.push_inv v hi.p hopen hcnt, hi.u⟩
    · exact ⟨hi.p, hi.u⟩
  | pFlush =>
    obtain ⟨hopen, rfl⟩ | ⟨-, rfl⟩ := exec_pFlush_cases h
    · exact ⟨Packer.flush_inv hi.p hopen, hi.u⟩
    · exact ⟨hi.p, hi.u⟩
  | uStart n len bytes =>
    obtain ⟨hn, hlen, rfl⟩ | ⟨e, -, rfl⟩ := exec_uStart_cases h
    · exact ⟨hi.p, Unpacker.start_inv s.u hwf hn hlen⟩
    · exact ⟨hi.p, hi.u⟩
  | uPop =>
    obtain ⟨hrem, v, rfl⟩ | ⟨-, rfl⟩ := exec_uPop_cases h
    · exact ⟨hi.p, Unpacker.pop_inv hi.u hrem⟩
    · exact ⟨hi.p, hi.u⟩

/-! ### The step -/

/-- What the decoder answers can be presented: the fields of the word fit, and the bytes are as many as
`len` says (30_encoding.md R53, R55). -/
theorem wellFormed_of_decode {c : Command} {i : Instr} (h : decode c = .ok i) : i.WellFormed := by
  obtain ⟨-, rfl⟩ | ⟨-, rfl⟩ | ⟨-, rfl⟩ | ⟨-, rfl⟩ | ⟨-, rfl⟩ | ⟨-, hb, rfl⟩ | ⟨-, rfl⟩ :=
    decode_ok_cases h
  · rfl
  · rfl
  · rfl
  · rfl
  · rfl
  · have hn : c.countField < 2 ^ Config.cw := BitVec.isLt _
    have hlen : c.lenField < 2 ^ Config.cw := BitVec.isLt _
    simp [Instr.WellFormed, Instr.wf, hn, hlen, hb]
  · rfl

/-- All that a step which answers can do: wait, reset, run the decoded command, or answer a reserved
word with ConfigError. -/
theorem step_cases {s t : State} (h : step s = .next t) :
    (s.inputs = [] ∧ t = s) ∨
    (∃ rest, s.inputs = .reset :: rest ∧ t = State.applyReset { s with inputs := rest }) ∨
    (∃ c rest, s.inputs = .command c :: rest ∧
      ((∃ i, decode c = .ok i ∧ exec i { s with inputs := rest } = .next t) ∨
       (∃ op, decode c = .error (.reservedOp op) ∧
          t = State.respond { s with inputs := rest } (.error .configError)))) := by
  unfold step serveNext at h
  split at h
  · next hin => cases h; exact .inl ⟨hin, rfl⟩
  · next e rest hin =>
    cases e with
    | reset => cases h; exact .inr (.inl ⟨rest, hin, rfl⟩)
    | command c =>
      refine .inr (.inr ⟨c, rest, hin, ?_⟩)
      simp only [serve, serveCommand] at h
      split at h
      · next i hd => exact .inl ⟨i, hd, h⟩
      · next e hd =>
        cases e with
        | reservedOp op => cases h; exact .inr ⟨op, hd, rfl⟩
        | byteCountMismatch len presented => cases h

/-! ### The obligations -/

/-- Settles O11: the invariant is kept by each of the four things a step can do. -/
theorem stepKeepsTheInvariant : Obligations.StepKeepsTheInvariant := by
  intro s t hi h
  obtain ⟨-, rfl⟩ | ⟨rest, -, rfl⟩ | ⟨c, rest, -, ⟨i, hd, hx⟩ | ⟨op, -, rfl⟩⟩ := step_cases h
  · exact hi
  · exact ⟨Packer.reset_inv, Unpacker.reset_inv⟩
  · exact exec_keeps_inv (s := { s with inputs := rest }) (wellFormed_of_decode hd) ⟨hi.p, hi.u⟩ hx
  · exact ⟨hi.p, hi.u⟩

/-- With no code left, U.POP is refused and unit U stays as it is. -/
theorem uPop_refused_of_rem_zero {s : State} (h : s.u.rem = 0) :
    completes .uPop s (.error .configError) (s.respond (.error .configError)) :=
  ⟨exec_uPop_refused ((popCheck_eq_some_iff _ _).2 ⟨rfl, h⟩), rfl⟩

/-- Only a U.START with `n >= 1` that succeeds makes codes available where none is left. -/
theorem exec_keeps_rem_zero {i : Instr} {s t : State} (h0 : s.u.rem = 0) (h : exec i s = .next t)
    (hstart : ¬ ∃ n len bytes, i = .uStart n len bytes ∧ 1 ≤ n ∧
      t.responses = s.responses ++ [.ok 0]) : t.u.rem = 0 := by
  cases i with
  | uStart n len bytes =>
    obtain ⟨-, -, rfl⟩ | ⟨e, -, rfl⟩ := exec_uStart_cases h
    · have hn : ¬ 1 ≤ n := fun hn => hstart ⟨n, len, bytes, rfl, hn, rfl⟩
      rw [respond_u, start_rem]
      omega
    · exact h0
  | uPop =>
    obtain ⟨hrem, -⟩ | ⟨-, rfl⟩ := exec_uPop_cases h
    · exact absurd h0 hrem
    · exact h0
  | _ => rwa [exec_keeps_u h nofun]

/-- Settles O9: the nine values hold by definition, the rest by the two lemmas on `U.REM = 0`. -/
theorem resetState : Obligations.ResetState := by
  refine ⟨rfl, rfl, rfl, rfl, rfl, rfl, rfl, rfl, rfl, ⟨_, exec_pInit _, rfl⟩,
    ⟨_, exec_uStart_accepted [] State.reset rfl, rfl⟩, ?_, ?_⟩
  · exact fun s h0 => ⟨_, uPop_refused_of_rem_zero h0, rfl⟩
  · exact fun i s t h0 h hstart => exec_keeps_rem_zero h0 h hstart

/-- Settles O30: only P.INIT and an accepted P.PUSH change the count. -/
theorem countNeverWraps : Obligations.CountNeverWraps := by
  intro i s t h
  cases i with
  | pInit => cases h; exact .inl ⟨rfl, rfl⟩
  | pPush v =>
    obtain ⟨-, hcnt, rfl⟩ | ⟨-, rfl⟩ := exec_pPush_cases h
    · exact .inr (.inl ⟨v, rfl, hcnt, push_cnt v s.p, rfl⟩)
    · exact .inr (.inr ⟨nofun, rfl, fun _ _ => rfl⟩)
  | pFlush =>
    obtain ⟨-, rfl⟩ | ⟨-, rfl⟩ := exec_pFlush_cases h
    · exact .inr (.inr ⟨nofun, finish_cnt s.p, nofun⟩)
    · exact .inr (.inr ⟨nofun, rfl, nofun⟩)
  | _ => exact .inr (.inr ⟨nofun, by rw [exec_keeps_p h nofun], nofun⟩)

/-- Settles O47: one nibble step toggles the state, and P.PUSH and U.POP make three. -/
theorem nibbleStepsToggleTheState : Obligations.NibbleStepsToggleTheState := by
  refine ⟨fun p x => ?_, fun u u' x h => ?_, fun v s t h => ?_, fun s t x h => ?_⟩
  · rw [putNibble_free]
    exact p.free.other_ne
  · obtain ⟨-, rfl⟩ := getNibble_cases h
    simp only
    omega
  · obtain ⟨hx, hr⟩ := h
    obtain ⟨-, -, rfl⟩ | ⟨-, rfl⟩ := exec_pPush_cases hx
    · rw [respond_p, push_free]
      exact s.p.free.other_ne
    · simp at hr
  · obtain ⟨hx, hr⟩ := h
    obtain ⟨-, v, rfl⟩ | ⟨-, rfl⟩ := exec_uPop_cases hx
    · simp only [respond_u]
      omega
    · simp at hr

/-- Settles O52: the response and the new unit are those the command's own unit determines. -/
theorem unitsShareNoState : Obligations.UnitsShareNoState := by
  intro i s s' t r h
  refine ⟨fun hu => ?_, fun hu => ?_, fun hu => ?_⟩
  · obtain ⟨r', hx⟩ := exec_unitQ hu
    obtain ⟨rfl, rfl⟩ := completes_of_exec (hx s) rfl h
    exact ⟨rfl, rfl, _, hx s', rfl⟩
  · obtain ⟨r', p', hx⟩ := exec_unitP hu s.p
    obtain ⟨rfl, rfl⟩ := completes_of_exec (hx s rfl) rfl h
    exact ⟨rfl, fun hp => ⟨_, ⟨hx s' hp, rfl⟩, rfl⟩⟩
  · obtain ⟨r', u', hx⟩ | hf := exec_unitU hu s.u
    · obtain ⟨rfl, rfl⟩ := completes_of_exec (hx s rfl) rfl h
      exact ⟨rfl, fun hp => ⟨_, ⟨hx s' hp, rfl⟩, rfl⟩⟩
    · cases (hf s rfl).symm.trans h.1

/-- P.PUSH leaves P.OPEN and every byte already emitted. -/
theorem exec_pPush_frame {v : Code} {s t : State} (h : exec (.pPush v) s = .next t) :
    t.p.isOpen = s.p.isOpen ∧ s.p.out <+: t.p.out := by
  obtain ⟨-, -, rfl⟩ | ⟨-, rfl⟩ := exec_pPush_cases h
  · exact ⟨push_isOpen v s.p, push_out_prefix v s.p⟩
  · exact ⟨rfl, List.prefix_rfl⟩

/-- P.FLUSH leaves P.CNT and every byte already emitted. -/
theorem exec_pFlush_frame {s t : State} (h : exec .pFlush s = .next t) :
    t.p.cnt = s.p.cnt ∧ s.p.out <+: t.p.out := by
  obtain ⟨-, rfl⟩ | ⟨-, rfl⟩ := exec_pFlush_cases h
  · exact ⟨finish_cnt s.p, finish_out_prefix s.p⟩
  · exact ⟨rfl, List.prefix_rfl⟩

/-- U.POP leaves the captured stream. -/
theorem exec_uPop_frame {s t : State} (h : exec .uPop s = .next t) :
    t.u.src = s.u.src ∧ t.u.len = s.u.len := by
  obtain ⟨-, v, rfl⟩ | ⟨-, rfl⟩ := exec_uPop_cases h
  · exact ⟨rfl, rfl⟩
  · exact ⟨rfl, rfl⟩

/-- Settles O54: the common frame of all commands, and what P.PUSH, P.FLUSH and U.POP leave of their own
unit. -/
theorem framesOfTheCommands : Obligations.FramesOfTheCommands := by
  intro i s t h
  obtain ⟨hin, ⟨r, hr⟩, hp, hu⟩ := exec_frame h
  refine ⟨hin, ⟨[r], hr.symm⟩, ?_, ?_, ?_, ?_, ?_, ?_⟩
  · rintro (⟨f, rfl⟩ | ⟨v, rfl⟩)
    · exact ⟨hp nofun, hu nofun⟩
    · exact ⟨hp nofun, hu nofun⟩
  · rintro rfl
    exact hu nofun
  · rintro v rfl
    obtain ⟨hopen, hout⟩ := exec_pPush_frame h
    exact ⟨hu nofun, hopen, fun k hk => getElem?_of_continues hout hk⟩
  · rintro rfl
    obtain ⟨hcnt, hout⟩ := exec_pFlush_frame h
    exact ⟨hu nofun, hcnt, fun k hk => getElem?_of_continues hout hk⟩
  · rintro n len bytes rfl
    exact hp nofun
  · rintro rfl
    exact ⟨hp nofun, exec_uPop_frame h⟩

/-- Settles O10: the invariant of each unit at its reset values. -/
theorem resetMeetsTheInvariant : Obligations.ResetMeetsTheInvariant := State.reset_inv

/-- Settles O25: the response of a command to unit Q is fixed before the state is given. -/
theorem unitQIsPure : Obligations.UnitQIsPure :=
  ⟨fun _ => exec_unitQ rfl, fun _ => exec_unitQ rfl⟩

end Sys2Proof.Machine

/-! # Streams, access and ordering (20_memory.md)

Which nibble an index addresses (R31), what a step does with a presented command (R38 a, R40), and that
the order of commands to different units does not matter (R38 b). -/

namespace Sys2Proof.Machine

/-! ### Commands to different units (R38 b) -/

/-- From a state that agrees on a command's own unit with one it completes in, it completes with the same
response, and keeps the agreement on each unit there was one on. -/
theorem completes_of_agree {i : Instr} {s s' t : State} {r : Response} (h : completes i s r t)
    (hp : unitOf i = .p → s'.p = s.p) (hu : unitOf i = .u → s'.u = s.u) :
    ∃ t', completes i s' r t' ∧ (s'.p = s.p → t'.p = t.p) ∧ (s'.u = s.u → t'.u = t.u) := by
  obtain ⟨hq, hP, hU⟩ := unitsShareNoState i s s' t r h
  cases hi : unitOf i with
  | q =>
    obtain ⟨htp, htu, t', ht'⟩ := hq hi
    have hp' : t'.p = s'.p := exec_keeps_p ht'.1 (by simp [hi])
    have hu' : t'.u = s'.u := exec_keeps_u ht'.1 (by simp [hi])
    exact ⟨t', ht', fun h => by rw [hp', htp, h], fun h => by rw [hu', htu, h]⟩
  | p =>
    obtain ⟨htu, hrun⟩ := hP hi
    obtain ⟨t', ht', hp'⟩ := hrun (hp hi)
    have hu' : t'.u = s'.u := exec_keeps_u ht'.1 (by simp [hi])
    exact ⟨t', ht', fun _ => hp', fun h => by rw [hu', htu, h]⟩
  | u =>
    obtain ⟨htp, hrun⟩ := hU hi
    obtain ⟨t', ht', hu'⟩ := hrun (hu hi)
    have hp' : t'.p = s'.p := exec_keeps_p ht'.1 (by simp [hi])
    exact ⟨t', ht', fun h => by rw [hp', htp, h], fun _ => hu'⟩

/-- Settles O53: `j` finds its unit in `s` as in `s1`, and `i` finds its unit after `j` as in `s`; each
unit is written by at most one of the two. -/
theorem unitsCommute : Obligations.UnitsCommute := by
  intro i j s s1 s2 r1 r2 hne hi hj
  obtain ⟨t1, hj', hp1, hu1⟩ := completes_of_agree (s' := s) hj
    (fun h => (exec_keeps_p hi.1 (h ▸ hne)).symm) (fun h => (exec_keeps_u hi.1 (h ▸ hne)).symm)
  obtain ⟨t2, hi', hp2, hu2⟩ := completes_of_agree (s' := t1) hi
    (fun h => exec_keeps_p hj'.1 (h ▸ hne.symm)) (fun h => exec_keeps_u hj'.1 (h ▸ hne.symm))
  refine ⟨t1, t2, hj', hi', ?_, ?_⟩
  · by_cases h : unitOf i = .p
    · have hjp : unitOf j ≠ .p := h ▸ hne.symm
      rw [hp2 (exec_keeps_p hj'.1 hjp), exec_keeps_p hj.1 hjp]
    · rw [exec_keeps_p hi'.1 h, hp1 (exec_keeps_p hi.1 h).symm]
  · by_cases h : unitOf i = .u
    · have hju : unitOf j ≠ .u := h ▸ hne.symm
      rw [hu2 (exec_keeps_u hj'.1 hju), exec_keeps_u hj.1 hju]
    · rw [exec_keeps_u hi'.1 h, hu1 (exec_keeps_u hi.1 h).symm]

/-! ### A step with a command presented (R38 a, R40) -/

theorem step_command {s : State} {c : Command} {rest : List HostEvent}
    (h : s.inputs = .command c :: rest) : step s = serveCommand c { s with inputs := rest } := by
  simp only [step, serveNext, h, serve]

theorem serveCommand_of_decode_ok {c : Command} {i : Instr} (h : decode c = .ok i) (s : State) :
    serveCommand c s = exec i s := by
  simp only [serveCommand, h]

/-- Settles O7: the step serves the presented command, and serving runs what it decodes to. -/
theorem stepRunsTheDecodedCommand : Obligations.StepRunsTheDecodedCommand := by
  intro s c rest i hin hd
  rw [step_command hin, serveCommand_of_decode_ok hd]

/-! ### The nibbles of a stream (R31) -/

theorem nibbleAt_of_lt {s : List Byte} {j : Nat} (h : j / 2 < s.length) :
    nibbleAt s j = some (nibbleHalf s[j / 2] j) := by
  simp only [nibbleAt, nibbleByte, List.getElem?_eq_getElem h, Option.map_some]

theorem nibbleAt_eq_none_iff {s : List Byte} {j : Nat} : nibbleAt s j = none ↔ 2 * s.length ≤ j := by
  simp only [nibbleAt, nibbleByte, Option.map_eq_none_iff, List.getElem?_eq_none_iff]
  omega

/-- Settles O37: nibble `j` exists exactly below twice the length, and is the half of byte `j div 2` that
`nibbleHalf` selects. -/
theorem nibbleAddressing : Obligations.NibbleAddressing := by
  refine fun s j => ⟨fun hj => ?_, nibbleAt_eq_none_iff.2⟩
  have hlt : j / 2 < s.length := by omega
  exact ⟨s[j / 2], List.getElem?_eq_getElem hlt, nibbleAt_of_lt hlt⟩

end Sys2Proof.Machine

/-! # Encoding (30_encoding.md)

What the decoder answers by `op` (R54 to R56), the value of a sample word (R51), the response of every
command (R57); then the host procedures (R59), for which PACK and UNPACK are brought to one form: the
nibbles of a stream, two to a byte. -/

namespace Sys2Proof.Machine

/-! ### Decoding, by `op` (R54 to R56) -/

theorem decode_quant {c : Command} (h : c.op.toNat = 0x0) : decode c = .ok (.quant c.payload) := by
  simp only [decode, h]

theorem decode_dequant {c : Command} (h : c.op.toNat = 0x1) :
    decode c = .ok (.dequant c.codeField) := by
  simp only [decode, h]

theorem decode_pInit {c : Command} (h : c.op.toNat = 0x4) : decode c = .ok .pInit := by
  simp only [decode, h]

theorem decode_pPush {c : Command} (h : c.op.toNat = 0x5) : decode c = .ok (.pPush c.codeField) := by
  simp only [decode, h]

theorem decode_pFlush {c : Command} (h : c.op.toNat = 0x6) : decode c = .ok .pFlush := by
  simp only [decode, h]

theorem decode_uStart {c : Command} (h : c.op.toNat = 0x8) (hb : c.bytes.length = c.lenField) :
    decode c = .ok (.uStart c.countField c.lenField c.bytes) := by
  simp only [decode, h, decodeStart, if_pos hb]

theorem decode_uPop {c : Command} (h : c.op.toNat = 0x9) : decode c = .ok .uPop := by
  simp only [decode, h]

theorem decode_reserved {c : Command} (h : c.op ∈ reservedOps) :
    decode c = .error (.reservedOp c.op) := by
  simp only [reservedOps, List.mem_cons, List.not_mem_nil, or_false] at h
  obtain h | h | h | h | h | h | h | h | h := h <;> simp [decode, h]

/-- The values of `op` that are not reserved are the seven of the opcode table. -/
theorem op_cases_of_not_reserved : ∀ op : BitVec 4, op ∉ reservedOps →
    op.toNat = 0x0 ∨ op.toNat = 0x1 ∨ op.toNat = 0x4 ∨ op.toNat = 0x5 ∨ op.toNat = 0x6 ∨
      op.toNat = 0x8 ∨ op.toNat = 0x9 := by
  decide

theorem payload_eq_ofNat (c : Command) : c.payload = BitVec.ofNat 64 (c.word.toNat % 2 ^ 64) := by
  rw [← payload_toNat, BitVec.ofNat_toNat, BitVec.setWidth_eq]

theorem codeField_eq_ofNat (c : Command) : c.codeField = BitVec.ofNat 12 (c.word.toNat % 2 ^ 12) := by
  rw [← codeField_toNat, BitVec.ofNat_toNat, BitVec.setWidth_eq]

/-- Settles O2: by the `op` of the word, each field as arithmetic on the word's number. -/
theorem operandsAreTheFieldsOfTheWord : Obligations.OperandsAreTheFieldsOfTheWord := by
  intro c w
  simp only [w, ← op_toNat, ← payload_eq_ofNat, ← codeField_eq_ofNat, ← countField_eq, ← lenField_eq]
  exact ⟨decode_quant, decode_dequant, decode_pInit, decode_pPush, decode_pFlush, decode_uStart,
    decode_uPop⟩

/-- Settles O3: the decoder refuses exactly the reserved values of `op`, and the step answers its refusal
with ConfigError. -/
theorem reservedOpsAnswerConfigError : Obligations.ReservedOpsAnswerConfigError := by
  refine ⟨fun s c rest hin hop => ?_, fun c hop hb => ?_⟩
  · rw [step_command hin, serveCommand, decode_reserved hop]
    rfl
  · obtain h | h | h | h | h | h | h := op_cases_of_not_reserved c.op hop
    · exact ⟨_, decode_quant h⟩
    · exact ⟨_, decode_dequant h⟩
    · exact ⟨_, decode_pInit h⟩
    · exact ⟨_, decode_pPush h⟩
    · exact ⟨_, decode_pFlush h⟩
    · exact ⟨_, decode_uStart h (hb (BitVec.eq_of_toNat_eq h))⟩
    · exact ⟨_, decode_uPop h⟩

/-! ### The value of a sample word (R51) -/

/-- A word with exponent field 2047 is an infinity or, with a fraction that is not 0, a NaN. -/
theorem ofWord_of_exp_max {w : Sample} (he : (w.extractLsb' 52 11).toNat = 2047) :
    F64.ofWord w = if (w.extractLsb' 0 52).toNat = 0 then some (.inf w.msb) else none := by
  simp only [F64.ofWord, he, if_true]

/-- A word with exponent field 0 holds its magnitude as it stands. -/
theorem ofWord_of_exp_zero {w : Sample} (he : (w.extractLsb' 52 11).toNat = 0) :
    F64.ofWord w = some (.fin ⟨w.msb, (w.extractLsb' 0 52).toNat⟩) := by
  simp [F64.ofWord, he]

/-- A normal word has the hidden bit, and doubles its unit with every exponent above 1. -/
theorem ofWord_of_exp_normal {w : Sample} (h0 : (w.extractLsb' 52 11).toNat ≠ 0)
    (h1 : (w.extractLsb' 52 11).toNat ≠ 2047) :
    F64.ofWord w = some (.fin ⟨w.msb,
      (2 ^ 52 + (w.extractLsb' 0 52).toNat) * 2 ^ ((w.extractLsb' 52 11).toNat - 1)⟩) := by
  simp only [F64.ofWord, if_neg h0, if_neg h1, pow2_eq]

theorem isNaN_iff (w : Sample) : isNaN w ↔
    (w.extractLsb' 52 11).toNat = 2047 ∧ (w.extractLsb' 0 52).toNat ≠ 0 := by
  simp only [isNaN, ne_eq, ← BitVec.toNat_inj]
  rfl

/-- The words without a value are the NaN patterns. -/
theorem ofWord_eq_none_iff (w : Sample) : F64.ofWord w = none ↔ isNaN w := by
  rw [isNaN_iff]
  by_cases h1 : (w.extractLsb' 52 11).toNat = 2047
  · rw [ofWord_of_exp_max h1]
    simp [h1]
  · refine iff_of_false ?_ fun h => h1 h.1
    by_cases h0 : (w.extractLsb' 52 11).toNat = 0
    · rw [ofWord_of_exp_zero h0]
      nofun
    · rw [ofWord_of_exp_normal h0 h1]
      nofun

/-- The rational value of a datum, its sign as a factor. -/
theorem toRat_mk (neg : Bool) (m : Nat) :
    FinVal.toRat ⟨neg, m⟩ = (if neg then -1 else 1) * ((m : ℚ) / 2 ^ 1074) := by
  cases neg
  · simp only [FinVal.toRat, FinVal.val]; simp
  · simp only [FinVal.toRat, FinVal.val]; simp [neg_div]

theorem units_split : (2 : ℚ) ^ 1074 = 2 ^ 1022 * 2 ^ 52 := by rw [← pow_add]

/-- The units of a subnormal magnitude as the exponent -1022 and a fraction. -/
theorem subnormal_value (t : ℚ) : t / 2 ^ 1074 = 2 ^ (-1022 : ℤ) * (t / 2 ^ 52) := by
  rw [units_split, zpow_neg, show (1022 : ℤ) = (1022 : ℕ) from rfl, zpow_natCast]
  generalize (2 : ℚ) ^ 1022 = a
  ring

/-- The units of a normal magnitude as an exponent and a fraction with the hidden bit. -/
theorem normal_value (t : ℚ) {e : Nat} (he : e ≠ 0) :
    (2 ^ 52 + t) * 2 ^ (e - 1) / 2 ^ 1074 = 2 ^ ((e : ℤ) - 1023) * (1 + t / 2 ^ 52) := by
  obtain ⟨k, rfl⟩ := Nat.exists_eq_succ_of_ne_zero he
  have hexp : ((k.succ : ℕ) : ℤ) - 1023 = k + -1022 := by push_cast; ring
  rw [hexp, zpow_add₀ two_ne_zero, zpow_natCast, mul_div_assoc, Nat.succ_sub_one, subnormal_value]
  ring

/-- Settles O14: the three branches of the table, and the two values as arithmetic on powers of two. -/
theorem sampleWordsHaveTheirValue : Obligations.SampleWordsHaveTheirValue := by
  intro w e t sign
  refine ⟨fun he => ?_, fun he => ?_, fun he => ?_, fun he => ?_⟩
  · have h0 : e ≠ 0 := by omega
    refine ⟨_, ofWord_of_exp_normal h0 (show e ≠ 2047 by omega), ?_⟩
    rw [toRat_mk, mul_assoc, ← normal_value _ h0]
    push_cast
    rfl
  · refine ⟨_, ofWord_of_exp_zero he, ?_⟩
    rw [toRat_mk, mul_assoc, ← subnormal_value]
  · rw [ofWord_of_exp_max he.1, if_pos he.2]
  · rw [ofWord_of_exp_max he.1, if_neg he.2]

/-! ### The response of every command (R57) -/

theorem codeResult_high (v : Code) : (codeResult v).extractLsb' 12 52 = 0 := by
  apply BitVec.eq_of_toNat_eq
  have := v.isLt
  rw [codeResult, BitVec.extractLsb'_toNat, BitVec.toNat_setWidth, Nat.shiftRight_eq_div_pow,
    Nat.mod_eq_of_lt (this.trans (by decide)), Nat.div_eq_of_lt this]
  rfl

theorem quantResponse_eq_ok_iff (f : Sample) (x : BitVec 64) :
    quantResponse f = .ok x ↔ ∃ q, quantize f = some q ∧ x = codeResult q := by
  unfold quantResponse
  cases quantize f <;> simp [@eq_comm _ x]

theorem quant_result {f : Sample} {s t : State} {x : BitVec 64} (h : completes (.quant f) s (.ok x) t) :
    ∃ q, x = codeResult q := by
  obtain ⟨hx, -⟩ := completes_of_exec (exec_quant f s) rfl h
  obtain ⟨q, -, hq⟩ := (quantResponse_eq_ok_iff f x).1 hx.symm
  exact ⟨q, hq⟩

theorem uPop_result {s t : State} {x : BitVec 64} (h : completes .uPop s (.ok x) t) :
    ∃ v, x = codeResult v := by
  obtain ⟨hx, hr⟩ := h
  obtain ⟨-, v, rfl⟩ | ⟨-, rfl⟩ := exec_uPop_cases hx
  · exact ⟨v, by simpa using hr.symm⟩
  · simp at hr

/-- A command to unit P or U other than U.POP has no result, and gives 0. -/
theorem result_zero {i : Instr} {s t : State} {x : BitVec 64} (h : completes i s (.ok x) t)
    (hq : unitOf i ≠ .q) (hpop : i ≠ .uPop) : x = 0 := by
  obtain ⟨hx, hr⟩ := h
  cases i with
  | quant f => exact absurd rfl hq
  | dequant v => exact absurd rfl hq
  | pInit => cases (exec_pInit s).symm.trans hx; simpa using hr.symm
  | pPush v =>
    obtain ⟨-, -, rfl⟩ | ⟨-, rfl⟩ := exec_pPush_cases hx
    · simpa using hr.symm
    · simp at hr
  | pFlush =>
    obtain ⟨-, rfl⟩ | ⟨-, rfl⟩ := exec_pFlush_cases hx
    · simpa using hr.symm
    · simp at hr
  | uStart n len bytes =>
    obtain ⟨-, -, rfl⟩ | ⟨e, -, rfl⟩ := exec_uStart_cases hx
    · simpa using hr.symm
    · simp at hr
  | uPop => exact absurd rfl hpop

/-- A step that serves a command takes it off and adds one response. -/
theorem step_command_responds {s t : State} {c : Command} {rest : List HostEvent}
    (hin : s.inputs = .command c :: rest) (h : step s = .next t) :
    t.inputs = rest ∧ ∃ r, t.responses = s.responses ++ [r] := by
  obtain ⟨h0, -⟩ | ⟨rest', h0, -⟩ | ⟨c', rest', h0, hc⟩ := step_cases h
  · cases hin.symm.trans h0
  · cases hin.symm.trans h0
  · cases hin.symm.trans h0
    obtain ⟨i, -, hx⟩ | ⟨op, -, rfl⟩ := hc
    · obtain ⟨hrest, hr, -⟩ := exec_frame hx
      exact ⟨hrest, hr⟩
    · exact ⟨rfl, _, rfl⟩

/-- Settles O51: one response per step that serves a command, and the result each command answers with. -/
theorem oneResponsePerCommand : Obligations.OneResponsePerCommand := by
  refine ⟨fun s t c rest hin h => step_command_responds hin h, fun _ => rfl, rfl, rfl, rfl,
    fun _ => rfl, fun i s t x h => ⟨?_, ?_⟩⟩
  · rintro (⟨f, rfl⟩ | rfl)
    · obtain ⟨q, rfl⟩ := quant_result h
      exact codeResult_high q
    · obtain ⟨v, rfl⟩ := uPop_result h
      exact codeResult_high v
  · cases i with
    | quant f => exact .inr (.inl ⟨f, rfl⟩)
    | dequant v => exact .inl ⟨v, rfl⟩
    | uPop => exact .inr (.inr (.inl rfl))
    | _ => exact .inr (.inr (.inr (result_zero h nofun nofun)))

/-! ### Commands issued in order (R59) -/

/-- Issuing a command is completing it. -/
theorem issue_eq_some_iff {i : Instr} {s t : State} {r : Response} :
    issue i s = some (r, t) ↔ completes i s r t := by
  unfold issue completes
  cases hx : exec i s with
  | next t' =>
    obtain ⟨-, ⟨r', hr'⟩, -⟩ := exec_frame hx
    simp only [hr', List.getLast?_append, List.getLast?_singleton, Option.some_or, Option.map_some,
      Option.some.injEq, Prod.mk.injEq, Host.Outcome.next.injEq]
    constructor
    · rintro ⟨rfl, rfl⟩
      exact ⟨rfl, hr'⟩
    · rintro ⟨rfl, hr⟩
      exact ⟨by simpa [hr'] using hr, rfl⟩
  | fault f => simp
  | refused f => simp

theorem issueAll_cons_error {i : Instr} {is : List Instr} {s t : State} {e : Err}
    (h : completes i s (.error e) t) : issueAll (i :: is) s = some (.error e, t) := by
  simp only [issueAll, issue_eq_some_iff.2 h]

/-- Where the first command succeeds, its result stands before those of the rest. -/
theorem issueAll_cons_ok {i : Instr} {is : List Instr} {s t t' : State} {x : BitVec 64}
    {xs : List (BitVec 64)} (h : completes i s (.ok x) t) (hrest : issueAll is t = some (.ok xs, t')) :
    issueAll (i :: is) s = some (.ok (x :: xs), t') := by
  simp only [issueAll, issue_eq_some_iff.2 h, hrest]

/-- Where the first command succeeds, an error of the rest is the error of the whole. -/
theorem issueAll_cons_ok_error {i : Instr} {is : List Instr} {s t t' : State} {x : BitVec 64} {e : Err}
    (h : completes i s (.ok x) t) (hrest : issueAll is t = some (.error e, t')) :
    issueAll (i :: is) s = some (.error e, t') := by
  simp only [issueAll, issue_eq_some_iff.2 h, hrest]

/-- Any relation of states that holds along each command issued holds along the sequence. -/
theorem issueAll_induction {R : State → State → Prop} (hrefl : ∀ s, R s s)
    (htrans : ∀ s t t', R s t → R t t' → R s t') {is : List Instr}
    (hstep : ∀ i ∈ is, ∀ s t, exec i s = .next t → R s t) {s t : State}
    {r : Except Err (List (BitVec 64))} (h : issueAll is s = some (r, t)) : R s t := by
  induction is generalizing s r with
  | nil => cases h; exact hrefl _
  | cons i is ih =>
    have hhead : ∀ {r t}, issue i s = some (r, t) → R s t := fun hi =>
      hstep i List.mem_cons_self s _ (issue_eq_some_iff.1 hi).1
    have htail : ∀ {s r}, issueAll is s = some (r, t) → R s t :=
      ih fun j hj => hstep j (List.mem_cons_of_mem i hj)
    unfold issueAll at h
    split at h
    · cases h
    · next hi => cases h; exact hhead hi
    · next hi =>
      split at h
      · cases h
      · next hrest => cases h; exact htrans _ _ _ (hhead hi) (htail hrest)
      · next hrest => cases h; exact htrans _ _ _ (hhead hi) (htail hrest)

theorem issueAll_keeps_p {is : List Instr} (hu : ∀ i ∈ is, unitOf i ≠ .p) {s t : State}
    {r : Except Err (List (BitVec 64))} (h : issueAll is s = some (r, t)) : t.p = s.p :=
  issueAll_induction (R := fun s t => t.p = s.p) (fun _ => rfl) (fun _ _ _ h h' => h'.trans h)
    (fun i hi _ _ hx => exec_keeps_p hx (hu i hi)) h

theorem issueAll_keeps_u {is : List Instr} (hu : ∀ i ∈ is, unitOf i ≠ .u) {s t : State}
    {r : Except Err (List (BitVec 64))} (h : issueAll is s = some (r, t)) : t.u = s.u :=
  issueAll_induction (R := fun s t => t.u = s.u) (fun _ => rfl) (fun _ _ _ h h' => h'.trans h)
    (fun i hi _ _ hx => exec_keeps_u hx (hu i hi)) h

/-- Commands that succeed in every state succeed in sequence, with their results in order. -/
theorem issueAll_of_forall₂ {is : List Instr} {xs : List (BitVec 64)}
    (h : List.Forall₂ (fun i x => ∀ s, ∃ t, completes i s (.ok x) t) is xs) (s : State) :
    ∃ t, issueAll is s = some (.ok xs, t) := by
  induction h generalizing s with
  | nil => exact ⟨s, rfl⟩
  | cons hi _ ih =>
    obtain ⟨t, ht⟩ := hi s
    obtain ⟨t', ht'⟩ := ih t
    exact ⟨t', issueAll_cons_ok ht ht'⟩

@[simp] theorem resultCodes_map_codeResult (vs : List Code) : resultCodes (vs.map codeResult) = vs := by
  have h : ∀ v : Code, (codeResult v).setWidth 12 = v := fun v => by
    simp [codeResult]
  simp [resultCodes, Function.comp_def, h]

/-! ### The nibbles of a stream, two to a byte (20_memory.md R31; 41_packer.md R94, R95) -/

/-- The bytes of a sequence of nibbles, the earlier one high; an odd number is padded with 0. -/
def bytesOfNibbles : List Nibble → List Byte
  | [] => []
  | [x] => [byteOf x 0]
  | x :: y :: ns => byteOf x y :: bytesOfNibbles ns

theorem length_bytesOfNibbles (ns : List Nibble) : (bytesOfNibbles ns).length = (ns.length + 1) / 2 := by
  induction ns using bytesOfNibbles.induct with
  | case1 => rfl
  | case2 x => simp [bytesOfNibbles]
  | case3 x y ns ih =>
    rw [bytesOfNibbles, List.length_cons, ih, List.length_cons, List.length_cons]
    omega

@[simp] theorem nibbleAt_byteOf_cons_zero (x y : Nibble) (s : List Byte) :
    nibbleAt (byteOf x y :: s) 0 = some x := by
  simp [nibbleAt, nibbleByte, nibbleHalf, byteOf_high]

@[simp] theorem nibbleAt_byteOf_cons_one (x y : Nibble) (s : List Byte) :
    nibbleAt (byteOf x y :: s) 1 = some y := by
  simp [nibbleAt, nibbleByte, nibbleHalf, byteOf_low]

@[simp] theorem nibbleAt_cons_add_two (b : Byte) (s : List Byte) (j : Nat) :
    nibbleAt (b :: s) (j + 2) = nibbleAt s j := by
  simp [nibbleAt, nibbleByte, nibbleHalf]

/-- The nibbles written are the nibbles read. -/
theorem nibbleAt_bytesOfNibbles (ns : List Nibble) {j : Nat} (hj : j < ns.length) :
    nibbleAt (bytesOfNibbles ns) j = ns[j]? := by
  induction ns using bytesOfNibbles.induct generalizing j with
  | case1 => exact absurd hj (Nat.not_lt_zero j)
  | case2 x =>
    obtain rfl : j = 0 := Nat.lt_one_iff.1 hj
    exact nibbleAt_byteOf_cons_zero x 0 []
  | case3 x y ns ih =>
    rw [bytesOfNibbles]
    match j with
    | 0 => exact nibbleAt_byteOf_cons_zero ..
    | 1 => exact nibbleAt_byteOf_cons_one ..
    | j + 2 =>
      rw [nibbleAt_cons_add_two, ih (by simpa using hj)]
      rfl

/-- PutNibble over a sequence from state E, then the emission of the flush, emits its bytes. -/
theorem foldl_putNibble_finish_out (ns : List Nibble) {p : Packer} (hf : p.free = .empty)
    (hc : p.cur = 0) :
    (ns.foldl (fun p x => p.putNibble x) p).finish.out = p.out ++ bytesOfNibbles ns := by
  induction ns using bytesOfNibbles.induct generalizing p with
  | case1 => simp [finish_empty hf, bytesOfNibbles]
  | case2 x =>
    rw [List.foldl_cons, List.foldl_nil, putNibble_empty x hf hc, finish_half rfl]
    rfl
  | case3 x y ns ih =>
    rw [List.foldl_cons, List.foldl_cons, putNibble_empty x hf hc, putNibble_half y x rfl rfl,
      ih rfl rfl, bytesOfNibbles]
    simp

theorem pack_eq_bytesOfNibbles (vs : List Code) : pack vs = bytesOfNibbles (nibblesOf vs) :=
  foldl_putNibble_finish_out (nibblesOf vs) rfl rfl

theorem nibblesOf_cons (v : Code) (vs : List Code) : nibblesOf (v :: vs) = codeNibbles v ++ nibblesOf vs :=
  List.flatMap_cons

@[simp] theorem length_nibblesOf (vs : List Code) : (nibblesOf vs).length = 3 * vs.length := by
  simp [nibblesOf, Nat.mul_comm]

theorem length_pack (vs : List Code) : (pack vs).length = streamBytes vs.length := by
  rw [pack_eq_bytesOfNibbles, length_bytesOfNibbles, length_nibblesOf]
  rfl

/-- The nibbles of a packed stream are those of its codes in order. -/
theorem nibbleAt_pack (vs : List Code) {j : Nat} (hj : j < 3 * vs.length) :
    nibbleAt (pack vs) j = (nibblesOf vs)[j]? := by
  rw [pack_eq_bytesOfNibbles, nibbleAt_bytesOfNibbles _ (by rwa [length_nibblesOf])]

/-! ### PACK (R59) -/

/-- PutNibble neither reads nor writes the count. -/
theorem putNibble_with_cnt (x : Nibble) (p : Packer) (c : Nat) :
    Packer.putNibble x { p with cnt := c } = { p.putNibble x with cnt := c } := by
  unfold Packer.putNibble
  cases p.free <;> rfl

theorem foldl_putNibble_with_cnt (ns : List Nibble) (p : Packer) (c : Nat) :
    ns.foldl (fun p x => p.putNibble x) { p with cnt := c } =
      { ns.foldl (fun p x => p.putNibble x) p with cnt := c } := by
  induction ns generalizing p with
  | nil => rfl
  | cons x ns ih => rw [List.foldl_cons, List.foldl_cons, putNibble_with_cnt, ih]

theorem finish_out_with_cnt (p : Packer) (c : Nat) :
    (Packer.finish { p with cnt := c }).out = p.finish.out := by
  unfold Packer.finish
  cases p.free <;> rfl

/-- Pushing codes is PutNibble over their nibbles, and the count. -/
theorem foldl_push (vs : List Code) (p : Packer) :
    vs.foldl (fun p v => p.push v) p =
      { (nibblesOf vs).foldl (fun p x => p.putNibble x) p with cnt := p.cnt + vs.length } := by
  induction vs generalizing p with
  | nil => rfl
  | cons v vs ih =>
    rw [List.foldl_cons, ih, push_cnt, nibblesOf_cons, List.foldl_append, push_eq,
      foldl_putNibble_with_cnt, List.length_cons, Nat.add_right_comm, Nat.add_assoc]

theorem foldl_push_flush_out (vs : List Code) :
    (vs.foldl (fun p v => p.push v) Packer.reset).flush.out = pack vs := by
  rw [flush_out, foldl_push, finish_out_with_cnt, pack]

/-- On an open stream with room for all the codes, the pushes and the flush succeed. -/
theorem issueAll_pushes (vs : List Code) (s : State) (hopen : s.p.isOpen = true)
    (hroom : s.p.cnt + vs.length ≤ Config.nmax) :
    ∃ xs t, issueAll (vs.map .pPush ++ [.pFlush]) s = some (.ok xs, t) ∧
      t.p = (vs.foldl (fun p v => p.push v) s.p).flush := by
  induction vs generalizing s with
  | nil =>
    have hflush : completes .pFlush s (.ok 0) _ :=
      ⟨exec_pFlush_accepted ((flushCheck_eq_none_iff _).2 hopen), rfl⟩
    exact ⟨[0], _, issueAll_cons_ok hflush rfl, rfl⟩
  | cons v vs ih =>
    rw [List.length_cons] at hroom
    have hpush : completes (.pPush v) s (.ok 0) _ :=
      ⟨exec_pPush_accepted v ((pushCheck_eq_none_iff _).2 ⟨hopen, by omega⟩), rfl⟩
    obtain ⟨xs, t, ht, htp⟩ := ih (State.respond { s with p := s.p.push v } (.ok 0))
      (by simpa using hopen) (by simp; omega)
    exact ⟨0 :: xs, t, issueAll_cons_ok hpush ht, htp⟩

/-- No command of PACK is for unit U. -/
theorem unitOf_packCommands (vs : List Code) : ∀ i ∈ packCommands vs, unitOf i ≠ .u := by
  intro i hi
  simp only [packCommands, List.mem_cons, List.mem_append, List.mem_map, List.not_mem_nil,
    or_false] at hi
  obtain rfl | ⟨v, -, rfl⟩ | rfl := hi <;> nofun

/-- PACK of at most NMAX codes succeeds from every state with `pack` of the codes, and leaves unit U. -/
theorem hostPack_eq (vs : List Code) (s : State) (hn : vs.length ≤ Config.nmax) :
    ∃ t, hostPack vs s = some (.ok (pack vs), t) ∧ t.p.out = pack vs ∧ t.u = s.u := by
  have hinit : completes .pInit s (.ok 0) _ := ⟨exec_pInit s, rfl⟩
  obtain ⟨xs, t, ht, htp⟩ := issueAll_pushes vs (State.respond { s with p := Packer.reset } (.ok 0)) rfl
    ((Nat.zero_add _).trans_le hn)
  have hall : issueAll (packCommands vs) s = some (.ok (0 :: xs), t) := issueAll_cons_ok hinit ht
  have hout : t.p.out = pack vs := by rw [htp]; exact foldl_push_flush_out vs
  refine ⟨t, ?_, hout, issueAll_keeps_u (unitOf_packCommands vs) hall⟩
  rw [hostPack, hall, ← hout]
  rfl

/-! ### ENCODE (R59) -/

theorem completes_quant (f : Sample) (s : State) :
    completes (.quant f) s (quantResponse f) (s.respond (quantResponse f)) :=
  ⟨exec_quant f s, rfl⟩

theorem completes_quant_code {f : Sample} {q : Code} (h : quantize f = some q) (s : State) :
    ∃ t, completes (.quant f) s (.ok (codeResult q)) t := by
  have hr : quantResponse f = .ok (codeResult q) := (quantResponse_eq_ok_iff f _).2 ⟨q, h, rfl⟩
  exact ⟨_, hr ▸ completes_quant f s⟩

theorem quantize_eq_none_iff (f : Sample) : quantize f = none ↔ isNaN f := by
  rw [quantize, Option.map_eq_none_iff, ofWord_eq_none_iff]

theorem completes_quant_nan {f : Sample} (h : isNaN f) (s : State) :
    ∃ t, completes (.quant f) s (.error .rangeError) t := by
  have hr : quantResponse f = .error .rangeError := by
    rw [quantResponse, (quantize_eq_none_iff f).2 h]
  exact ⟨_, hr ▸ completes_quant f s⟩

/-- QUANTs of samples without a NaN succeed in sequence. -/
theorem issueAll_quant {ss : List Sample} {qs : List Code} (h : ss.map quantize = qs.map some)
    (s : State) : ∃ t, issueAll (ss.map .quant) s = some (.ok (qs.map codeResult), t) := by
  apply issueAll_of_forall₂
  rw [List.forall₂_map_left_iff, List.forall₂_map_right_iff]
  rw [← List.forall₂_eq_eq_eq, List.forall₂_map_left_iff, List.forall₂_map_right_iff] at h
  exact h.imp fun f q hq => completes_quant_code hq

/-- With a NaN among the samples, the QUANTs end at the first one with RangeError. -/
theorem issueAll_quant_nan {ss : List Sample} (h : ∃ f ∈ ss, isNaN f) (s : State) :
    ∃ t, issueAll (ss.map .quant) s = some (.error .rangeError, t) := by
  induction ss generalizing s with
  | nil => simp at h
  | cons f ss ih =>
    cases hq : quantize f with
    | none =>
      obtain ⟨t, ht⟩ := completes_quant_nan ((quantize_eq_none_iff f).1 hq) s
      exact ⟨t, issueAll_cons_error ht⟩
    | some q =>
      have hf : ¬ isNaN f := fun hf => nomatch hq.symm.trans ((quantize_eq_none_iff f).2 hf)
      obtain ⟨t, ht⟩ := completes_quant_code hq s
      obtain ⟨t', ht'⟩ := ih (by simpa [hf] using h) t
      exact ⟨t', issueAll_cons_ok_error ht ht'⟩

/-- No QUANT is for another unit than Q. -/
theorem unitOf_quants (ss : List Sample) {n : UnitName} (hn : .q ≠ n) :
    ∀ i ∈ ss.map Instr.quant, unitOf i ≠ n := by
  simpa [unitOf] using fun _ _ => hn

/-- Settles O55: the QUANTs run on unit Q alone, and PACK follows where all of them succeed. -/
theorem encodeQuantizesThenPacks : Obligations.EncodeQuantizesThenPacks := by
  refine ⟨fun ss qs s hqs hn => ?_, fun ss s hnan => ?_⟩
  · obtain ⟨t, ht⟩ := issueAll_quant hqs s
    obtain ⟨t', ht', -, htu⟩ := hostPack_eq qs t hn
    refine ⟨t', ?_, htu.trans (issueAll_keeps_u (unitOf_quants ss nofun) ht)⟩
    rw [hostEncode, ht]
    simpa only [HostResult.andThen, resultCodes_map_codeResult] using ht'
  · obtain ⟨t, ht⟩ := issueAll_quant_nan hnan s
    refine ⟨t, ?_, issueAll_keeps_p (unitOf_quants ss nofun) ht,
      issueAll_keeps_u (unitOf_quants ss nofun) ht⟩
    rw [hostEncode, ht]
    rfl

/-! ### UNPACK and DECODE (R59) -/

/-- The next U.POP returns the code whose three nibbles stand at the cursor. -/
theorem completes_uPop {s : State} (v : Code) (hrem : s.u.rem ≠ 0) (hlen : (s.u.nib + 2) / 2 < s.u.len)
    (h : ∀ k, k < 3 → nibbleAt s.u.src (s.u.nib + k) = (codeNibbles v)[k]?) :
    completes .uPop s (.ok (codeResult v))
      (State.respond { s with u := { s.u with nib := s.u.nib + 3, rem := s.u.rem - 1 } }
        (.ok (codeResult v))) := by
  have hpop := pop_some hlen (h 0 (by decide)) (h 1 (by decide)) (h 2 (by decide))
  rw [codeOf_codeNibbles] at hpop
  exact ⟨exec_uPop_accepted ((popCheck_eq_none_iff _).2 hrem) hpop, rfl⟩

/-- As many U.POPs as there are codes left return the codes whose nibbles stand from the cursor on. -/
theorem issueAll_uPops (vs : List Code) (s : State) (hrem : s.u.rem = vs.length)
    (hlen : s.u.nib + 3 * vs.length ≤ 2 * s.u.len)
    (h : ∀ j, j < 3 * vs.length → nibbleAt s.u.src (s.u.nib + j) = (nibblesOf vs)[j]?) :
    ∃ t, issueAll (List.replicate vs.length .uPop) s = some (.ok (vs.map codeResult), t) := by
  induction vs generalizing s with
  | nil => exact ⟨s, rfl⟩
  | cons v vs ih =>
    rw [List.length_cons] at hrem hlen h
    rw [nibblesOf_cons] at h
    have hpop := completes_uPop v (s := s) (by omega) (by omega) fun k hk => by
      rw [h k (by omega), List.getElem?_append_left hk]
    have htail : ∀ j, j < 3 * vs.length →
        nibbleAt s.u.src (s.u.nib + 3 + j) = (nibblesOf vs)[j]? := fun j hj => by
      have := h (3 + j) (by omega)
      rwa [List.getElem?_append_right (by simp), length_codeNibbles, Nat.add_sub_cancel_left,
        ← Nat.add_assoc] at this
    obtain ⟨t, ht⟩ := ih
      (State.respond { s with u := { s.u with nib := s.u.nib + 3, rem := s.u.rem - 1 } }
        (.ok (codeResult v))) (by simp [hrem]) (by simp; omega) htail
    exact ⟨t, issueAll_cons_ok hpop ht⟩

/-- UNPACK of a packed sequence gives the sequence back. -/
theorem hostUnpack_pack (vs : List Code) (s : State) (hn : vs.length ≤ Config.nmax) :
    ∃ t, hostUnpack (pack vs) vs.length s = some (.ok vs, t) ∧ t.p = s.p := by
  have hstart : completes (.uStart vs.length (pack vs).length (pack vs)) s (.ok 0) _ :=
    ⟨exec_uStart_accepted _ s ((startCheck_eq_none_iff _ _).2 ⟨hn, length_pack vs⟩), rfl⟩
  obtain ⟨t, ht⟩ := issueAll_uPops vs
    (State.respond { s with u := s.u.start vs.length (pack vs).length (pack vs) } (.ok 0)) rfl
    (by simp [length_pack, streamBytes]; omega) (fun j hj => by simpa using nibbleAt_pack vs hj)
  have hall : issueAll (unpackCommands (pack vs) vs.length) s =
      some (.ok (0 :: vs.map codeResult), t) := issueAll_cons_ok hstart ht
  have hu : ∀ i ∈ unpackCommands (pack vs) vs.length, unitOf i ≠ .p := by
    simp [unpackCommands, unitOf]
  refine ⟨t, ?_, issueAll_keeps_p hu hall⟩
  rw [hostUnpack, hall]
  simp [HostResult.andThen]

/-- DEQUANTs succeed in sequence. -/
theorem issueAll_dequant (vs : List Code) (s : State) :
    ∃ t, issueAll (vs.map .dequant) s = some (.ok (vs.map dequantize), t) := by
  apply issueAll_of_forall₂
  rw [List.forall₂_map_left_iff, List.forall₂_map_right_iff, List.forall₂_same]
  exact fun v _ s => ⟨_, exec_dequant v s, rfl⟩

/-- Settles O56: UNPACK gives the codes back, and the DEQUANTs follow; neither is for unit P. -/
theorem decodeUnpacksThenDequantizes : Obligations.DecodeUnpacksThenDequantizes := by
  intro vs s hn
  obtain ⟨t, ht, hp⟩ := hostUnpack_pack vs s hn
  obtain ⟨t', ht'⟩ := issueAll_dequant vs t
  have hu : ∀ i ∈ vs.map Instr.dequant, unitOf i ≠ .p := by simp [unitOf]
  refine ⟨t', ?_, (issueAll_keeps_p hu ht').trans hp⟩
  rw [hostDecode, ht]
  exact ht'

end Sys2Proof.Machine

/-! # The quantizer (40_quantizer.md)

First the words of the finite data (R51) and rounding (R70): `Rounds x r` says that `r` is the model's
rounding of the rational `x`. Each operation rounds its exact result, and everything else about the
arithmetic follows from what rounding does: it is nearest, keeps the order, keeps what is a binary64 value
and is off by at most half a place. -/

namespace Sys2Proof.Machine

/-! ### Powers of two in the model's form -/

theorem pow2_pos (n : Nat) : 0 < pow2 n := by
  rw [pow2_eq]
  exact Nat.two_pow_pos n

theorem pow2_add (j k : Nat) : pow2 (j + k) = 2 ^ j * pow2 k := by
  rw [pow2_eq, pow2_eq, Nat.pow_add]

theorem two_pow_le_pow2 {k n : Nat} (h : k ≤ n) : 2 ^ k ≤ pow2 n := by
  rw [pow2_eq]
  exact Nat.pow_le_pow_right Nat.two_pos h

theorem two_pow_lt_pow2 {k n : Nat} (h : k < n) : 2 ^ k < pow2 n := by
  rw [pow2_eq]
  exact Nat.pow_lt_pow_right Nat.one_lt_two h

theorem two_pow_mul_lt_pow2 {j k n : Nat} (h : j + k < n) : 2 ^ j * 2 ^ k < pow2 n := by
  rw [← Nat.pow_add]
  exact two_pow_lt_pow2 h

theorem log2_lt_of_lt_pow2 {m n : Nat} (hm : m ≠ 0) (h : m < pow2 n) : m.log2 < n :=
  (Nat.log2_lt hm).2 (by rwa [← pow2_eq])

/-! ### The words of the finite data (R51) -/

theorem packWord_toNat (s : Bool) {e t : Nat} (he : e < 2 ^ 11) (ht : t < 2 ^ 52) :
    (F64.packWord s e t).toNat = s.toNat * 2 ^ 63 + e * 2 ^ 52 + t := by
  have ht' : (BitVec.ofNat 52 t).toNat = t := Nat.mod_eq_of_lt ht
  have he' : (BitVec.ofNat 11 e).toNat = e := Nat.mod_eq_of_lt he
  rw [F64.packWord, BitVec.toNat_append, BitVec.toNat_append, BitVec.toNat_ofBool, he', ht',
    ← Nat.shiftLeft_add_eq_or_of_lt he, ← Nat.shiftLeft_add_eq_or_of_lt ht]
  simp only [Nat.shiftLeft_eq]
  ring

theorem packWord_exp (s : Bool) {e t : Nat} (he : e < 2 ^ 11) (ht : t < 2 ^ 52) :
    ((F64.packWord s e t).extractLsb' 52 11).toNat = e := by
  rw [BitVec.extractLsb'_toNat, packWord_toNat s he ht, Nat.shiftRight_eq_div_pow]
  omega

theorem packWord_frac (s : Bool) {e t : Nat} (he : e < 2 ^ 11) (ht : t < 2 ^ 52) :
    ((F64.packWord s e t).extractLsb' 0 52).toNat = t := by
  rw [BitVec.extractLsb'_toNat, packWord_toNat s he ht, Nat.shiftRight_zero]
  omega

theorem packWord_msb (s : Bool) {e t : Nat} (he : e < 2 ^ 11) (ht : t < 2 ^ 52) :
    (F64.packWord s e t).msb = s := by
  rw [BitVec.msb_eq_decide, packWord_toNat s he ht]
  cases s <;> simp <;> omega

/-- `m` units are a number of at most 53 significant bits. -/
def HasPrecision (m : Nat) : Prop := ∃ c k, c < 2 ^ 53 ∧ m = c * 2 ^ k

/-- The unit of the last place of a magnitude with `L + 1` bits divides it. -/
theorem HasPrecision.div_mul {m : Nat} (h : HasPrecision m) :
    m / 2 ^ (m.log2 - 52) * 2 ^ (m.log2 - 52) = m := by
  obtain ⟨c, k, hc, rfl⟩ := h
  have := roundMag_exact (k := k) hc
  rw [roundMag_eq] at this
  exact Nat.div_mul_cancel (Dvd.intro_left _ (by simpa using this))

theorem toWord_of_lt (s : Bool) {m : Nat} (h : m < 2 ^ 52) :
    F64.toWord (.fin ⟨s, m⟩) = F64.packWord s 0 m := by
  rw [F64.toWord, pow2_eq, if_pos h]

theorem toWord_of_le (s : Bool) {m : Nat} (h : 2 ^ 52 ≤ m) :
    F64.toWord (.fin ⟨s, m⟩) =
      F64.packWord s (m.log2 - 52 + 1) (m / 2 ^ (m.log2 - 52) - 2 ^ 52) := by
  simp only [F64.toWord, pow2_eq, floorLog2_eq, if_neg h.not_gt]

/-- The significand of a normal magnitude has exactly 53 bits. -/
theorem significand_bounds {m : Nat} (h : 2 ^ 52 ≤ m) :
    2 ^ 52 ≤ m / 2 ^ (m.log2 - 52) ∧ m / 2 ^ (m.log2 - 52) < 2 ^ 53 := by
  have hne : m ≠ 0 := by rintro rfl; simp at h
  have hL : 52 ≤ m.log2 := (Nat.le_log2 hne).2 h
  have hpos := Nat.two_pow_pos (m.log2 - 52)
  rw [Nat.le_div_iff_mul_le hpos, Nat.div_lt_iff_lt_mul hpos, ← Nat.pow_add, ← Nat.pow_add]
  rw [show 52 + (m.log2 - 52) = m.log2 by omega, show 53 + (m.log2 - 52) = m.log2 + 1 by omega]
  exact ⟨Nat.log2_self_le hne, Nat.lt_log2_self⟩

/-- A finite datum of at most 53 significant bits is the value of the word written for it. -/
theorem ofWord_toWord (s : Bool) {m : Nat} (h : HasPrecision m) (hm : m < pow2 2098) :
    F64.ofWord (F64.toWord (.fin ⟨s, m⟩)) = some (.fin ⟨s, m⟩) := by
  rcases lt_or_ge m (2 ^ 52) with hlt | hge
  · rw [toWord_of_lt s hlt, ofWord_of_exp_zero (packWord_exp s (by simp) hlt),
      packWord_msb s (by simp) hlt, packWord_frac s (by simp) hlt]
  · have hne : m ≠ 0 := by rintro rfl; simp at hge
    have hL : m.log2 < 2098 := log2_lt_of_lt_pow2 hne hm
    obtain ⟨hlo, hhi⟩ := significand_bounds hge
    have he : m.log2 - 52 + 1 < 2 ^ 11 := by omega
    have ht : m / 2 ^ (m.log2 - 52) - 2 ^ 52 < 2 ^ 52 := by omega
    have hexp := packWord_exp s he ht
    rw [toWord_of_le s hge, ofWord_of_exp_normal (by omega) (by omega), hexp, packWord_msb s he ht,
      packWord_frac s he ht, Nat.add_sub_cancel, Nat.add_sub_cancel' hlo, h.div_mul]

/-- The magnitudes of the words are the numbers of at most 53 significant bits below 2^1024. -/
theorem isMagnitude_iff (m : Nat) : isMagnitude m ↔ HasPrecision m ∧ m < pow2 2098 := by
  constructor
  · rintro ⟨w, s, hw⟩
    have ht := (w.extractLsb' 0 52).isLt
    have he := (w.extractLsb' 52 11).isLt
    by_cases h1 : (w.extractLsb' 52 11).toNat = 2047
    · rw [ofWord_of_exp_max h1] at hw
      split at hw <;> simp at hw
    by_cases h0 : (w.extractLsb' 52 11).toNat = 0
    · rw [ofWord_of_exp_zero h0] at hw
      simp only [Option.some.injEq, F64.fin.injEq, FinVal.mk.injEq] at hw
      obtain ⟨-, rfl⟩ := hw
      exact ⟨⟨_, 0, ht.trans (by simp), (Nat.mul_one _).symm⟩,
        ht.trans_le (two_pow_le_pow2 (by simp))⟩
    · rw [ofWord_of_exp_normal h0 h1] at hw
      simp only [Option.some.injEq, F64.fin.injEq, FinVal.mk.injEq] at hw
      obtain ⟨-, rfl⟩ := hw
      refine ⟨⟨_, _, by omega, rfl⟩, ?_⟩
      calc _ < 2 ^ 53 * 2 ^ ((w.extractLsb' 52 11).toNat - 1) :=
            Nat.mul_lt_mul_of_pos_right (by omega) (Nat.two_pow_pos _)
        _ = 2 ^ (53 + ((w.extractLsb' 52 11).toNat - 1)) := (Nat.pow_add ..).symm
        _ ≤ pow2 2098 := two_pow_le_pow2 (by omega)
  · rintro ⟨h, hm⟩
    exact ⟨_, _, ofWord_toWord false h hm⟩

/-- An even significand leaves the last fraction bit 0. -/
theorem toWord_last_bit (s : Bool) {c k : Nat} (hc : c < 2 ^ 53) (heven : c % 2 = 0)
    (hm : c * 2 ^ k < pow2 2098) : (F64.toWord (.fin ⟨s, c * 2 ^ k⟩)).extractLsb' 0 1 = 0 := by
  have key : ∀ e t, e < 2 ^ 11 → t < 2 ^ 52 → t % 2 = 0 →
      (F64.packWord s e t).extractLsb' 0 1 = 0 := by
    intro e t he ht h2
    apply BitVec.eq_of_toNat_eq
    rw [BitVec.extractLsb'_toNat, packWord_toNat s he ht, Nat.shiftRight_zero]
    simp
    omega
  rcases lt_or_ge (c * 2 ^ k) (2 ^ 52) with hlt | hge
  · rw [toWord_of_lt s hlt]
    exact key _ _ (by simp) hlt (by simp [Nat.mul_mod, heven])
  · have hne : c * 2 ^ k ≠ 0 := by intro h0; simp [h0] at hge
    obtain ⟨hlo, hhi⟩ := significand_bounds hge
    have hL : (c * 2 ^ k).log2 < 2098 := log2_lt_of_lt_pow2 hne hm
    have hlog : (c * 2 ^ k).log2 < 53 + k := by
      rw [Nat.log2_lt hne, Nat.pow_add]
      exact Nat.mul_lt_mul_of_pos_right hc (Nat.two_pow_pos k)
    rw [toWord_of_le s hge]
    refine key _ _ (by omega) (by omega) ?_
    obtain ⟨j, hj⟩ := Nat.exists_eq_add_of_le (show (c * 2 ^ k).log2 - 52 ≤ k by omega)
    generalize (c * 2 ^ k).log2 - 52 = l at *
    have : c * 2 ^ k / 2 ^ l = c * 2 ^ j := by
      rw [hj, Nat.pow_add, Nat.mul_comm (2 ^ l), ← Nat.mul_assoc,
        Nat.mul_div_cancel _ (Nat.two_pow_pos l)]
    have : c * 2 ^ j % 2 = 0 := by simp [Nat.mul_mod, heven]
    omega

/-! ### Rounding to the nearest magnitude (R70) -/

/-- The rounded natural is within half of the quotient, and even where it is half away. -/
theorem abs_roundHalfEven_sub (a : Nat) {b : Nat} (hb : 0 < b) :
    |(roundHalfEven a b : ℚ) - a / b| ≤ 1 / 2 ∧
      (|(roundHalfEven a b : ℚ) - a / b| = 1 / 2 → roundHalfEven a b % 2 = 0) := by
  obtain ⟨hhi, hlo, heven⟩ := roundHalfEven_spec a hb
  generalize roundHalfEven a b = r at *
  have hb' : (0 : ℚ) < b := by exact_mod_cast hb
  have hx : (a : ℚ) = a / b * b := by field_simp
  generalize hxe : (a : ℚ) / b = x at *
  have hhi' : 2 * x ≤ 2 * r + 1 := by
    have : 2 * (a : ℚ) ≤ (2 * r + 1) * b := by exact_mod_cast hhi
    nlinarith
  have hlo' : 2 * (r : ℚ) ≤ 2 * x + 1 := by
    have : 2 * (r : ℚ) * b ≤ 2 * a + b := by exact_mod_cast hlo
    nlinarith
  refine ⟨abs_le.2 ⟨by linarith, by linarith⟩, fun htie => heven ?_⟩
  rcases eq_or_eq_neg_of_abs_eq htie with h | h
  · right
    have : 2 * (r : ℚ) * b = 2 * a + b := by rw [hx, eq_add_of_sub_eq h]; ring
    exact_mod_cast this
  · left
    have : 2 * (a : ℚ) = (2 * r + 1) * b := by rw [hx, show x = r + 1 / 2 by linarith]; ring
    exact_mod_cast this

/-- Half a step is the least distance to any natural but the rounded one. -/
theorem abs_roundHalfEven_sub_le (a : Nat) {b t : Nat} (hb : 0 < b) (ht : t ≠ roundHalfEven a b) :
    |(roundHalfEven a b : ℚ) - a / b| ≤ |(t : ℚ) - a / b| ∧
      (|(roundHalfEven a b : ℚ) - a / b| = |(t : ℚ) - a / b| → roundHalfEven a b % 2 = 0) := by
  obtain ⟨hle, heven⟩ := abs_roundHalfEven_sub a hb
  generalize roundHalfEven a b = r at *
  have hone : (1 : ℚ) ≤ |(t : ℚ) - r| := by
    have : (1 : ℤ) ≤ |(t : ℤ) - r| := Int.one_le_abs (by omega)
    exact_mod_cast this
  have htri := abs_sub_le (t : ℚ) (a / b) r
  rw [abs_sub_comm ((a : ℚ) / b)] at htri
  exact ⟨by linarith, fun h => heven (by linarith)⟩

/-- The step of `roundMag` at `a / b`, as a power of two: the unit of the last place. -/
def ulpExp (a b : Nat) : Nat := (a / b).log2 - 52

theorem roundMag_eq_steps (a b : Nat) :
    roundMag a b = roundHalfEven a (b * 2 ^ ulpExp a b) * 2 ^ ulpExp a b := roundMag_eq a b

/-- The number of steps is at most 2^53. -/
theorem steps_le (a : Nat) {b : Nat} (hb : 0 < b) :
    roundHalfEven a (b * 2 ^ ulpExp a b) ≤ 2 ^ 53 := by
  have h := roundMag_le a hb
  rw [roundMag_eq_steps, Nat.pow_add] at h
  exact Nat.le_of_mul_le_mul_right h (Nat.two_pow_pos _)

/-- A number of 53 bits, or of 54 bits that is a power of two, times a power of two, has 53 significant
bits, and an even significand if the number is even. -/
theorem exists_significand {r : Nat} (k : Nat) (hr : r ≤ 2 ^ 53) :
    ∃ c j, c < 2 ^ 53 ∧ r * 2 ^ k = c * 2 ^ j ∧ (r % 2 = 0 → c % 2 = 0) := by
  rcases hr.lt_or_eq with h | rfl
  · exact ⟨r, k, h, rfl, id⟩
  · exact ⟨2 ^ 52, k + 1, by simp, by ring, fun _ => by simp⟩

theorem roundMag_hasPrecision (a : Nat) {b : Nat} (hb : 0 < b) : HasPrecision (roundMag a b) := by
  obtain ⟨c, j, hc, hcj, -⟩ := exists_significand (ulpExp a b) (steps_le a hb)
  exact ⟨c, j, hc, by rw [roundMag_eq_steps, hcj]⟩

/-- A distance in steps of 2^k. -/
theorem abs_steps_sub (r k : Nat) (x : ℚ) :
    |((r * 2 ^ k : Nat) : ℚ) - x| = |(r : ℚ) - x / 2 ^ k| * 2 ^ k := by
  have hk : (0 : ℚ) < 2 ^ k := by positivity
  conv_rhs => rw [← abs_of_pos hk]
  rw [← abs_mul, abs_of_pos hk, sub_mul, div_mul_cancel₀ _ hk.ne']
  push_cast
  rfl

theorem div_steps (a b k : Nat) : (a : ℚ) / ((b * 2 ^ k : Nat) : ℚ) = a / b / 2 ^ k := by
  push_cast
  rw [div_div]

/-- The rounded magnitude is within half a step of the quotient. -/
theorem abs_roundMag_sub_le_ulp (a : Nat) {b : Nat} (hb : 0 < b) :
    |(roundMag a b : ℚ) - a / b| ≤ 2 ^ ulpExp a b / 2 := by
  obtain ⟨h, -⟩ := abs_roundHalfEven_sub a (Nat.mul_pos hb (Nat.two_pow_pos (ulpExp a b)))
  rw [div_steps] at h
  rw [roundMag_eq_steps, abs_steps_sub]
  exact (mul_le_mul_of_nonneg_right h (pow_nonneg zero_le_two _)).trans_eq (one_div_mul_eq_div ..)

/-- Below 2^(53 + j) units the rounding error is at most half of 2^j units. -/
theorem abs_roundMag_sub_le {a b j : Nat} (hb : 0 < b) (h : a < 2 ^ (53 + j) * b) :
    |(roundMag a b : ℚ) - a / b| ≤ 2 ^ j / 2 := by
  have hlog : ulpExp a b ≤ j := by
    have hlt := (Nat.div_lt_iff_lt_mul hb).2 h
    unfold ulpExp
    rcases eq_or_ne (a / b) 0 with h0 | h0
    · simp [h0]
    · have := (Nat.log2_lt h0).2 hlt
      omega
  refine (abs_roundMag_sub_le_ulp a hb).trans ?_
  have : (2 : ℚ) ^ ulpExp a b ≤ 2 ^ j := pow_le_pow_right₀ one_le_two hlog
  linarith

/-- A number of at most 53 significant bits that is no multiple of the step lies below the binade. -/
theorem HasPrecision.steps_or_below {n : Nat} (hn : HasPrecision n) (k : Nat) :
    (∃ t, n = t * 2 ^ k) ∨ (k ≠ 0 ∧ n < 2 ^ (52 + k)) := by
  obtain ⟨c, j, hc, rfl⟩ := hn
  rcases le_or_gt k j with h | h
  · exact .inl ⟨c * 2 ^ (j - k), by rw [Nat.mul_assoc, ← Nat.pow_add, Nat.sub_add_cancel h]⟩
  · refine .inr ⟨by omega, ?_⟩
    calc c * 2 ^ j < 2 ^ 53 * 2 ^ j := Nat.mul_lt_mul_of_pos_right hc (Nat.two_pow_pos j)
      _ = 2 ^ (53 + j) := (Nat.pow_add ..).symm
      _ ≤ 2 ^ (52 + k) := Nat.pow_le_pow_right Nat.two_pos (by omega)

/-- The binade of a quotient starts at or below it, where the step is more than one unit. -/
theorem binade_le {a b : Nat} (hb : 0 < b) (hk : ulpExp a b ≠ 0) :
    (2 : ℚ) ^ (52 + ulpExp a b) ≤ a / b := by
  have hne : a / b ≠ 0 := fun h0 => hk (by simp [ulpExp, h0])
  have hlo := Nat.log2_self_le hne
  rw [show (a / b).log2 = 52 + ulpExp a b by unfold ulpExp at *; omega, Nat.le_div_iff_mul_le hb] at hlo
  rw [le_div_iff₀ (by exact_mod_cast hb)]
  exact_mod_cast hlo

/-- Among the whole numbers of steps none is nearer to the quotient than the rounded magnitude. -/
theorem roundMag_nearest_steps (a : Nat) {b t : Nat} (hb : 0 < b)
    (hne : t * 2 ^ ulpExp a b ≠ roundMag a b) :
    |(roundMag a b : ℚ) - a / b| ≤ |((t * 2 ^ ulpExp a b : Nat) : ℚ) - a / b| ∧
      (|(roundMag a b : ℚ) - a / b| = |((t * 2 ^ ulpExp a b : Nat) : ℚ) - a / b| →
        roundHalfEven a (b * 2 ^ ulpExp a b) % 2 = 0) := by
  rw [roundMag_eq_steps] at hne ⊢
  have hk : (0 : ℚ) < 2 ^ ulpExp a b := by positivity
  rw [abs_steps_sub, abs_steps_sub, mul_le_mul_iff_left₀ hk, mul_left_inj' hk.ne', ← div_steps]
  exact abs_roundHalfEven_sub_le a (Nat.mul_pos hb (Nat.two_pow_pos _)) fun h => hne (h ▸ rfl)

/-- No number of at most 53 significant bits is nearer to the quotient than the rounded magnitude, whose
number of steps is even where another one is as near. -/
theorem roundMag_nearest (a : Nat) {b n : Nat} (hb : 0 < b) (hn : HasPrecision n)
    (hne : n ≠ roundMag a b) :
    |(roundMag a b : ℚ) - a / b| ≤ |(n : ℚ) - a / b| ∧
      (|(roundMag a b : ℚ) - a / b| = |(n : ℚ) - a / b| →
        roundHalfEven a (b * 2 ^ ulpExp a b) % 2 = 0) := by
  rcases hn.steps_or_below (ulpExp a b) with ⟨t, rfl⟩ | ⟨hk, hbelow⟩
  · exact roundMag_nearest_steps a hb hne
  have hx := binade_le hb hk
  have hnx : (n : ℚ) < 2 ^ (52 + ulpExp a b) := by exact_mod_cast hbelow
  have hedge : |(roundMag a b : ℚ) - a / b| ≤ a / b - 2 ^ (52 + ulpExp a b) := by
    have hcast : ((2 ^ 52 * 2 ^ ulpExp a b : Nat) : ℚ) = 2 ^ (52 + ulpExp a b) := by
      rw [← Nat.pow_add]; push_cast; rfl
    rw [← abs_of_nonneg (sub_nonneg.2 hx), abs_sub_comm _ ((2 : ℚ) ^ _), ← hcast]
    by_cases h : 2 ^ 52 * 2 ^ ulpExp a b = roundMag a b
    · rw [h]
    · exact (roundMag_nearest_steps a hb h).1
  have hfar : |(n : ℚ) - a / b| = a / b - n := by rw [abs_sub_comm, abs_of_pos (by linarith)]
  rw [hfar]
  exact ⟨by linarith, fun h => by linarith⟩

/-! ### `RNE64` of a rational (R70) -/

/-- A sign as a factor. -/
def signOf (neg : Bool) : ℚ := if neg then -1 else 1

@[simp] theorem signOf_true : signOf true = -1 := rfl
@[simp] theorem signOf_false : signOf false = 1 := rfl
@[simp] theorem signOf_not (neg : Bool) : signOf (!neg) = -signOf neg := by cases neg <;> simp
@[simp] theorem abs_signOf (neg : Bool) : |signOf neg| = 1 := by cases neg <;> simp

theorem signOf_xor (s t : Bool) : signOf (s ^^ t) = signOf s * signOf t := by
  cases s <;> cases t <;> simp

theorem toRat_eq (y : FinVal) : y.toRat = signOf y.neg * (y.mag / 2 ^ 1074) := toRat_mk y.neg y.mag

theorem units_pos : (0 : ℚ) < 2 ^ 1074 := pow_pos two_pos _

theorem units_nonneg (a b : Nat) : (0 : ℚ) ≤ a / b / 2 ^ 1074 :=
  div_nonneg (div_nonneg (Nat.cast_nonneg a) (Nat.cast_nonneg b)) units_pos.le

theorem abs_toRat (y : FinVal) : |y.toRat| = y.mag / 2 ^ 1074 := by
  rw [toRat_eq, abs_mul, abs_signOf, one_mul, abs_of_nonneg (div_nonneg (Nat.cast_nonneg _) units_pos.le)]

theorem toRat_eq_zero_iff (y : FinVal) : y.toRat = 0 ↔ y.mag = 0 := by
  rw [← abs_eq_zero, abs_toRat, div_eq_zero_iff, Nat.cast_eq_zero, or_iff_left units_pos.ne']

/-- The distance of a datum from a value of the same sign, in units. -/
theorem abs_toRat_sub_same (neg : Bool) (m : Nat) (X : ℚ) :
    |FinVal.toRat ⟨neg, m⟩ - signOf neg * (X / 2 ^ 1074)| = |m - X| / 2 ^ 1074 := by
  rw [toRat_eq, ← mul_sub, ← sub_div, abs_mul, abs_signOf, one_mul, abs_div, abs_of_pos units_pos]

/-- The distance of a datum from a value of the other sign, in units. -/
theorem abs_toRat_sub_opposite (neg : Bool) (m : Nat) {X : ℚ} (hX : 0 ≤ X) :
    |FinVal.toRat ⟨!neg, m⟩ - signOf neg * (X / 2 ^ 1074)| = (m + X) / 2 ^ 1074 := by
  have hsum : -signOf neg * (m / 2 ^ 1074) - signOf neg * (X / 2 ^ 1074) =
      signOf neg * -((m + X) / 2 ^ 1074) := by
    rw [add_div, neg_add, mul_add, mul_neg, mul_neg, neg_mul, sub_eq_add_neg]
  rw [toRat_eq, signOf_not, hsum, abs_mul, abs_signOf, one_mul, abs_neg,
    abs_of_nonneg (div_nonneg (by positivity) units_pos.le)]

theorem cast_pow2 (n : Nat) : ((pow2 n : Nat) : ℚ) = 2 ^ n := by
  rw [pow2_eq, Nat.cast_pow, Nat.cast_ofNat]

/-- The overflow threshold, 2^1024 - 2^970, in units. -/
theorem threshold_units :
    ((2 : ℚ) ^ 1024 - 2 ^ 970) * 2 ^ 1074 = ((pow2 2098 - pow2 2044 : Nat) : ℚ) := by
  rw [Nat.cast_sub (by decide), cast_pow2, cast_pow2, sub_mul, ← pow_add, ← pow_add]

/-- The quotients that round to 2^1024 or more are those from 2^1024 - 2^970 on. -/
theorem overflow_iff (a : Nat) {b : Nat} (hb : 0 < b) :
    pow2 2098 ≤ roundMag a b ↔ (2 : ℚ) ^ 1024 - 2 ^ 970 ≤ a / b / 2 ^ 1074 := by
  have hb' : (0 : ℚ) < b := by exact_mod_cast hb
  rw [le_div_iff₀ units_pos, threshold_units, le_div_iff₀ hb', ← Nat.cast_mul, Nat.cast_le]
  constructor
  · intro h
    by_contra! hlt
    have hbelow : a < 2 ^ (53 + 2045) * b :=
      hlt.trans_le (Nat.mul_le_mul_right b ((Nat.sub_le ..).trans_eq (pow2_eq (53 + 2045))))
    have herr := (abs_le.1 (abs_roundMag_sub_le hb hbelow)).2
    have hx : (a : ℚ) / b < pow2 2098 - pow2 2044 := by
      rw [div_lt_iff₀ hb', ← Nat.cast_sub (by decide)]
      exact_mod_cast hlt
    have h' : (pow2 2098 : ℚ) ≤ roundMag a b := by exact_mod_cast h
    have hhalf : (2 : ℚ) ^ 2045 / 2 = pow2 2044 := by
      rw [cast_pow2, pow_succ, mul_div_cancel_right₀ _ two_ne_zero]
    rw [hhalf] at herr
    linarith
  · intro h
    have hround : roundMag (pow2 2098 - pow2 2044) 1 = pow2 2098 := by decide
    rw [← hround]
    exact roundMag_mono Nat.one_pos hb (by rwa [Nat.mul_one])

theorem rne64_of_le (neg : Bool) {a b : Nat} (h : pow2 2098 ≤ roundMag a b) :
    rne64 neg a b = .inf neg := if_pos h

theorem rne64_of_lt (neg : Bool) {a b : Nat} (h : roundMag a b < pow2 2098) :
    rne64 neg a b = .fin ⟨neg, roundMag a b⟩ := if_neg h.not_ge

/-- No datum of at most 53 significant bits, of either sign, is nearer to a signed quotient than the one of
the rounded magnitude. -/
theorem toRat_roundMag_nearest (neg : Bool) (a : Nat) {b : Nat} (hb : 0 < b) {z : FinVal}
    (hz : HasPrecision z.mag) (hne : z.toRat ≠ FinVal.toRat ⟨neg, roundMag a b⟩) :
    |FinVal.toRat ⟨neg, roundMag a b⟩ - signOf neg * ((a : ℚ) / b / 2 ^ 1074)| ≤
        |z.toRat - signOf neg * ((a : ℚ) / b / 2 ^ 1074)| ∧
      (|FinVal.toRat ⟨neg, roundMag a b⟩ - signOf neg * ((a : ℚ) / b / 2 ^ 1074)| =
          |z.toRat - signOf neg * ((a : ℚ) / b / 2 ^ 1074)| →
        roundHalfEven a (b * 2 ^ ulpExp a b) % 2 = 0) := by
  obtain ⟨s, n⟩ := z
  rw [abs_toRat_sub_same]
  rcases Bool.eq_or_eq_not s neg with rfl | rfl
  · have hn : n ≠ roundMag a b := fun h => hne (by rw [h])
    rw [abs_toRat_sub_same, div_le_div_iff_of_pos_right units_pos, div_left_inj' units_pos.ne']
    exact roundMag_nearest a hb hz hn
  · have hX : (0 : ℚ) ≤ a / b := by positivity
    have hn : (0 : ℚ) ≤ n := Nat.cast_nonneg n
    rw [abs_toRat_sub_opposite _ _ hX, div_le_div_iff_of_pos_right units_pos, div_left_inj' units_pos.ne']
    rcases eq_or_ne (roundMag a b) 0 with h0 | h0
    · have hpos : (0 : ℚ) < n := by
        refine lt_of_le_of_ne hn fun h => hne ?_
        rw [toRat_eq, toRat_eq, h0, ← h]
        simp
      rw [h0, Nat.cast_zero, zero_sub, abs_neg, abs_of_nonneg hX]
      exact ⟨by linarith, fun h => by linarith⟩
    · obtain ⟨hle, heven⟩ := roundMag_nearest a hb ⟨0, 0, by simp, by simp⟩ h0.symm
      rw [Nat.cast_zero, zero_sub, abs_neg, abs_of_nonneg hX] at hle heven
      exact ⟨by linarith, fun h => heven (by linarith)⟩

/-- `r` is the model's rounding of the rational `x`: of a sign and a quotient of units that denote `x`. -/
def Rounds (x : ℚ) (r : F64) : Prop :=
  ∃ neg a b, 0 < b ∧ r = rne64 neg a b ∧ x = signOf neg * ((a : ℚ) / b / 2 ^ 1074)

/-- The model's rounding is `RNE64` of R70. -/
theorem Rounds.isRNE64 {x : ℚ} {r : F64} (h : Rounds x r) : isRNE64 x r := by
  obtain ⟨neg, a, b, hb, rfl, rfl⟩ := h
  have hX := units_nonneg a b
  have habs : |signOf neg * ((a : ℚ) / b / 2 ^ 1074)| = (a : ℚ) / b / 2 ^ 1074 := by
    rw [abs_mul, abs_signOf, one_mul, abs_of_nonneg hX]
  have hover := overflow_iff a hb
  rcases le_or_gt (pow2 2098) (roundMag a b) with hinf | hfin
  · have hpos : (0 : ℚ) < a / b / 2 ^ 1074 :=
      (sub_pos.2 (pow_lt_pow_right₀ one_lt_two (by simp))).trans_le (hover.1 hinf)
    rw [rne64_of_le neg hinf]
    refine ⟨(hover.1 hinf).trans_eq habs.symm, ?_⟩
    generalize (a : ℚ) / b / 2 ^ 1074 = X at *
    cases neg
    · simpa using hpos.le
    · simpa using hpos
  · rw [rne64_of_lt neg hfin]
    refine ⟨habs.trans_lt (lt_of_not_ge (mt hover.2 hfin.not_ge)),
      (isMagnitude_iff _).2 ⟨roundMag_hasPrecision a hb, hfin⟩, ?_, ?_, ?_⟩
    · generalize (a : ℚ) / b / 2 ^ 1074 = X at *
      cases neg
      · simp
      · simpa using hX
    · generalize (a : ℚ) / b / 2 ^ 1074 = X at *
      cases neg
      · simpa using hX
      · simp
    · intro z hz hne
      obtain ⟨hle, heven⟩ := toRat_roundMag_nearest neg a hb ((isMagnitude_iff _).1 hz).1 hne
      refine ⟨hle, fun htie => ?_⟩
      obtain ⟨c, j, hc, hcj, hc2⟩ := exists_significand (ulpExp a b) (steps_le a hb)
      rw [← roundMag_eq_steps] at hcj
      rw [hcj] at hfin ⊢
      exact toWord_last_bit neg hc (hc2 (heven htie)) hfin

/-! ### Each operation is its exact result rounded once (R70) -/

theorem F64.cast_one : ((F64.one : Nat) : ℚ) = 2 ^ 1074 := cast_pow2 1074

theorem F64.one_pos : 0 < F64.one := by decide

theorem ofNat_toRat (v : Nat) : (F64.ofNat v).toRat = v := by
  rw [toRat_eq, F64.ofNat, signOf_false, Nat.cast_mul, F64.cast_one,
    mul_div_cancel_right₀ _ units_pos.ne', one_mul]

theorem two_toRat : F64.two.toRat = 2 := by
  rw [toRat_eq, F64.two, signOf_false, cast_pow2, pow_succ,
    mul_div_cancel_left₀ _ units_pos.ne', one_mul]

theorem half_toRat : F64.half.toRat = 1 / 2 := by
  rw [toRat_eq, F64.half, signOf_false, cast_pow2, one_mul, pow_succ _ 1073, ← div_div,
    div_self (pow_ne_zero _ two_ne_zero)]

theorem fdiv_rounds (a : FinVal) {b : FinVal} (hb : b.mag ≠ 0) :
    Rounds (a.toRat / b.toRat) (fdiv (.fin a) b) := by
  refine ⟨_, _, _, Nat.pos_of_ne_zero hb, rfl, ?_⟩
  have hb' : (b.mag : ℚ) ≠ 0 := by exact_mod_cast hb
  have hU := units_pos.ne'
  rw [toRat_eq, toRat_eq, signOf_xor, Nat.cast_mul, F64.cast_one]
  generalize (2 : ℚ) ^ 1074 = U at *
  cases b.neg
  · simp; field_simp
  · simp; field_simp

theorem fmul_rounds (a b : FinVal) : Rounds (a.toRat * b.toRat) (fmul (.fin a) b) := by
  refine ⟨_, _, _, F64.one_pos, rfl, ?_⟩
  rw [toRat_eq, toRat_eq, signOf_xor, Nat.cast_mul, F64.cast_one]
  generalize (2 : ℚ) ^ 1074 = U
  ring

theorem fadd_rounds (a b : FinVal) : Rounds (a.toRat + b.toRat) (fadd (.fin a) b) := by
  rw [toRat_eq, toRat_eq, fadd]
  rcases Bool.eq_or_eq_not a.neg b.neg with hs | hs
  · rw [if_pos hs]
    refine ⟨_, _, _, Nat.one_pos, rfl, ?_⟩
    rw [hs, Nat.cast_add, ← mul_add, ← add_div, Nat.cast_one, div_one]
  · rw [if_neg (by simp [hs]), hs, signOf_not]
    rcases lt_trichotomy b.mag a.mag with h | h | h
    · rw [if_pos h]
      refine ⟨_, _, _, Nat.one_pos, rfl, ?_⟩
      rw [signOf_not, Nat.cast_sub h.le]
      generalize (2 : ℚ) ^ 1074 = U
      ring
    · rw [if_neg (by omega), if_neg (by omega)]
      refine ⟨false, 0, 1, Nat.one_pos, rfl, ?_⟩
      rw [h]
      simp
    · rw [if_neg (by omega), if_pos h]
      refine ⟨_, _, _, Nat.one_pos, rfl, ?_⟩
      rw [Nat.cast_sub h.le]
      generalize (2 : ℚ) ^ 1074 = U
      ring

theorem toRat_neg (b : FinVal) : FinVal.toRat ⟨!b.neg, b.mag⟩ = -b.toRat := by
  rw [toRat_eq, toRat_eq, signOf_not, neg_mul]

theorem fsub_rounds (a b : FinVal) : Rounds (a.toRat - b.toRat) (fsub (.fin a) b) := by
  rw [sub_eq_add_neg, ← toRat_neg]
  exact fadd_rounds a _

/-- Two values of opposite sign whose sum is 0 have the sum +0.0. -/
theorem fadd_cancel {a b : FinVal} (ha : a.mag ≠ 0) (h : a.toRat + b.toRat = 0) :
    fadd (.fin a) b = .fin ⟨false, 0⟩ := by
  have hmag : a.mag = b.mag := by
    have := abs_toRat b
    rw [eq_neg_of_add_eq_zero_right h, abs_neg, abs_toRat, div_left_inj' units_pos.ne'] at this
    exact_mod_cast this
  have hsign : a.neg ≠ b.neg := by
    intro hs
    rw [show b = a by cases a; cases b; simp_all] at h
    exact ha ((toRat_eq_zero_iff a).1 (by linarith))
  rw [fadd, if_neg hsign, if_neg (by omega), if_neg (by omega)]

/-- Settles O16: each operation rounds its exact result, and that rounding is `RNE64`. -/
theorem arithmeticIsRoundedToNearestEven : Obligations.ArithmeticIsRoundedToNearestEven :=
  ⟨fun a b => (fadd_rounds a b).isRNE64, fun a b => (fsub_rounds a b).isRNE64,
    fun a b => (fmul_rounds a b).isRNE64, fun a _ hb => (fdiv_rounds a hb).isRNE64,
    by decide, by decide, fun _ _ ha _ h => fadd_cancel ha h, by simp [fdiv, F64.two],
    fun _ => rfl, by simp [fmul, F64.ofNat]⟩

/-! ### What rounding keeps: order, exactness, a bound of the error -/

theorem fin_le_iff (a b : FinVal) : F64.le (.fin a) (.fin b) = true ↔ a.toRat ≤ b.toRat := by
  rw [F64.le, decide_eq_true_iff, FinVal.toRat, FinVal.toRat,
    div_le_div_iff_of_pos_right units_pos, Int.cast_le]

theorem rne64_le_of_nonneg {a b c d : Nat} (hb : 0 < b) (hd : 0 < d) (h : a * d ≤ c * b) :
    F64.le (rne64 false a b) (rne64 false c d) = true := by
  have hm := roundMag_mono hb hd h
  rcases le_or_gt (pow2 2098) (roundMag c d) with hc | hc
  · rw [rne64_of_le false hc]
    cases rne64 false a b with
    | inf s => cases s <;> rfl
    | fin x => rfl
  · rw [rne64_of_lt false hc, rne64_of_lt false (hm.trans_lt hc)]
    simpa [F64.le, FinVal.val] using hm

theorem rne64_le_of_nonpos {a b c d : Nat} (hb : 0 < b) (hd : 0 < d) (h : c * b ≤ a * d) :
    F64.le (rne64 true a b) (rne64 true c d) = true := by
  have hm := roundMag_mono hd hb h
  rcases le_or_gt (pow2 2098) (roundMag a b) with ha | ha
  · rw [rne64_of_le true ha]
    rfl
  · rw [rne64_of_lt true ha, rne64_of_lt true (hm.trans_lt ha)]
    simpa [F64.le, FinVal.val] using hm

theorem rne64_le_of_signs (a b c d : Nat) : F64.le (rne64 true a b) (rne64 false c d) = true := by
  rcases le_or_gt (pow2 2098) (roundMag a b) with ha | ha
  · rw [rne64_of_le true ha]
    rfl
  rcases le_or_gt (pow2 2098) (roundMag c d) with hc | hc
  · rw [rne64_of_le false hc, rne64_of_lt true ha]
    rfl
  · rw [rne64_of_lt true ha, rne64_of_lt false hc]
    simp [F64.le, FinVal.val]

theorem rne64_zero (neg : Bool) (b : Nat) : rne64 neg 0 b = .fin ⟨neg, 0⟩ := by
  have h : roundMag 0 b = 0 := by simp [roundMag_eq, roundHalfEven]
  rw [rne64_of_lt neg (by rw [h]; decide), h]

theorem units_eq_zero_iff (a : Nat) {b : Nat} (hb : 0 < b) : (a : ℚ) / b / 2 ^ 1074 = 0 ↔ a = 0 := by
  rw [div_eq_zero_iff, or_iff_left units_pos.ne', div_eq_zero_iff, Nat.cast_eq_zero, Nat.cast_eq_zero,
    or_iff_left hb.ne']

/-- Rounding keeps the order of the rationals. -/
theorem Rounds.le {x y : ℚ} {r t : F64} (hr : Rounds x r) (ht : Rounds y t) (hxy : x ≤ y) :
    F64.le r t = true := by
  obtain ⟨s, a, b, hb, rfl, rfl⟩ := hr
  obtain ⟨u, c, d, hd, rfl, rfl⟩ := ht
  have hb' : (0 : ℚ) < b := by exact_mod_cast hb
  have hd' : (0 : ℚ) < d := by exact_mod_cast hd
  have hU := units_pos
  cases s with
  | false =>
    cases u with
    | false =>
      refine rne64_le_of_nonneg hb hd ?_
      rw [signOf_false, one_mul, one_mul, div_le_div_iff_of_pos_right hU,
        div_le_div_iff₀ hb' hd'] at hxy
      exact_mod_cast hxy
    | true =>
      have ha := units_nonneg a b
      have hc := units_nonneg c d
      rw [signOf_false, signOf_true, one_mul, neg_one_mul] at hxy
      have ha0 := (units_eq_zero_iff a hb).1 (le_antisymm (hxy.trans (neg_nonpos.2 hc)) ha)
      have hc0 := (units_eq_zero_iff c hd).1 (le_antisymm (neg_nonneg.1 (ha.trans hxy)) hc)
      rw [ha0, hc0, rne64_zero, rne64_zero]
      rfl
  | true =>
    cases u with
    | false => exact rne64_le_of_signs a b c d
    | true =>
      refine rne64_le_of_nonpos hb hd ?_
      rw [signOf_true, neg_one_mul, neg_one_mul, neg_le_neg_iff, div_le_div_iff_of_pos_right hU,
        div_le_div_iff₀ hd' hb'] at hxy
      exact_mod_cast hxy

/-- `x` is a finite binary64 value. -/
def IsBinary64 (x : ℚ) : Prop := ∃ y : FinVal, y.toRat = x ∧ HasPrecision y.mag ∧ y.mag < pow2 2098

/-- A binary64 value is its own rounding. -/
theorem IsBinary64.rounds {x : ℚ} (h : IsBinary64 x) :
    ∃ y : FinVal, y.toRat = x ∧ Rounds x (.fin y) := by
  obtain ⟨y, rfl, ⟨c, k, hc, hck⟩, hlt⟩ := h
  have hround : roundMag y.mag 1 = y.mag := by rw [hck, roundMag_exact hc]
  refine ⟨y, rfl, y.neg, y.mag, 1, Nat.one_pos, ?_, by rw [toRat_eq, Nat.cast_one, div_one]⟩
  rw [rne64_of_lt y.neg (by rwa [hround]), hround]

theorem IsBinary64.neg {x : ℚ} (h : IsBinary64 x) : IsBinary64 (-x) := by
  obtain ⟨y, rfl, hy⟩ := h
  exact ⟨⟨!y.neg, y.mag⟩, toRat_neg y, hy⟩

theorem isBinary64_ofNat {v : Nat} (hv : v < 2 ^ 53) : IsBinary64 v := by
  refine ⟨F64.ofNat v, ofNat_toRat v, ⟨v, 1074, hv, by rw [F64.ofNat, F64.one, pow2_eq]⟩, ?_⟩
  refine (Nat.mul_lt_mul_of_pos_right hv F64.one_pos).trans ?_
  rw [F64.one, pow2_eq]
  exact two_pow_mul_lt_pow2 (by simp)

/-- A finite rounding is `rne64` of a magnitude of its sign. -/
theorem rne64_eq_fin {neg : Bool} {a b : Nat} {y : FinVal} (h : rne64 neg a b = .fin y) :
    y = ⟨neg, roundMag a b⟩ ∧ roundMag a b < pow2 2098 := by
  rcases le_or_gt (pow2 2098) (roundMag a b) with hinf | hfin
  · rw [rne64_of_le neg hinf] at h
    cases h
  · rw [rne64_of_lt neg hfin] at h
    cases h
    exact ⟨rfl, hfin⟩

theorem Rounds.hasPrecision {x : ℚ} {y : FinVal} (h : Rounds x (.fin y)) :
    HasPrecision y.mag ∧ y.mag < pow2 2098 := by
  obtain ⟨neg, a, b, hb, hy, -⟩ := h
  obtain ⟨rfl, hlt⟩ := rne64_eq_fin hy.symm
  exact ⟨roundMag_hasPrecision a hb, hlt⟩

/-- A finite rounding is a binary64 value. -/
theorem Rounds.isBinary64 {x : ℚ} {y : FinVal} (h : Rounds x (.fin y)) : IsBinary64 y.toRat :=
  ⟨y, rfl, h.hasPrecision⟩

/-- A value that is not above a binary64 value is not rounded above it. -/
theorem Rounds.le_of_le {x c : ℚ} {y : FinVal} (h : Rounds x (.fin y)) (hc : IsBinary64 c)
    (hx : x ≤ c) : y.toRat ≤ c := by
  obtain ⟨z, rfl, hz⟩ := hc.rounds
  exact (fin_le_iff y z).1 (h.le hz hx)

/-- A value that is not below a binary64 value is not rounded below it. -/
theorem Rounds.ge_of_ge {x c : ℚ} {y : FinVal} (h : Rounds x (.fin y)) (hc : IsBinary64 c)
    (hx : c ≤ x) : c ≤ y.toRat := by
  obtain ⟨z, rfl, hz⟩ := hc.rounds
  exact (fin_le_iff z y).1 (hz.le h hx)

/-- What is a binary64 value is not changed by rounding. -/
theorem Rounds.exact {x : ℚ} {y : FinVal} (h : Rounds x (.fin y)) (hx : IsBinary64 x) : y.toRat = x :=
  le_antisymm (h.le_of_le hx le_rfl) (h.ge_of_ge hx le_rfl)

/-- Below 2^53 places of 2^-k rounding gives a finite datum, off by at most half a place. -/
theorem Rounds.near {x : ℚ} {r : F64} (h : Rounds x r) (k : Nat) (hk : k ≤ 1074)
    (hlo : -(2 ^ 53 / 2 ^ k) < x) (hhi : x < 2 ^ 53 / 2 ^ k) :
    ∃ y : FinVal, r = .fin y ∧ |y.toRat - x| ≤ 1 / 2 / 2 ^ k := by
  have hx := abs_lt.2 ⟨hlo, hhi⟩
  obtain ⟨neg, a, b, hb, rfl, rfl⟩ := h
  have hb' : (0 : ℚ) < b := by exact_mod_cast hb
  obtain ⟨j, hj⟩ := Nat.exists_eq_add_of_le hk
  have hU : (2 : ℚ) ^ 1074 = 2 ^ k * 2 ^ j := by rw [hj, pow_add]
  have hpow : (0 : ℚ) < 2 ^ k ∧ (0 : ℚ) < 2 ^ j := ⟨by positivity, by positivity⟩
  rw [abs_mul, abs_signOf, one_mul, abs_of_nonneg (units_nonneg a b), hU, ← div_div,
    div_right_comm, div_lt_div_iff_of_pos_right hpow.1, div_lt_iff₀ hpow.2, ← pow_add,
    div_lt_iff₀ hb'] at hx
  have ha : a < 2 ^ (53 + j) * b := by exact_mod_cast hx
  have hfin : roundMag a b < pow2 2098 := by
    have hle := roundMag_mono hb Nat.one_pos (a := a) (c := 1 * 2 ^ (53 + j))
      (by rw [Nat.mul_one, Nat.one_mul]; exact ha.le)
    rw [roundMag_exact (by simp), Nat.one_mul] at hle
    exact hle.trans_lt (two_pow_lt_pow2 (by omega))
  refine ⟨_, rne64_of_lt neg hfin, ?_⟩
  rw [abs_toRat_sub_same, hU, mul_comm, ← div_div, div_le_div_iff_of_pos_right hpow.1,
    div_le_iff₀ hpow.2, one_div_mul_eq_div]
  exact abs_roundMag_sub_le hb ha

/-! ### QUANT (R71 to R75) -/

theorem exec_quant_code {f : Sample} {x : F64} (h : F64.ofWord f = some x) (s : State) :
    exec (.quant f) s =
      .next { s with responses := s.responses ++ [.ok ((quantOrdered x).setWidth 64)] } := by
  rw [exec_quant, (quantResponse_eq_ok_iff f _).2 ⟨quantOrdered x, by rw [quantize, h]; rfl, rfl⟩]
  rfl

theorem exec_quant_nan {f : Sample} (h : isNaN f) (s : State) :
    exec (.quant f) s = .next { s with responses := s.responses ++ [.error .rangeError] } := by
  rw [exec_quant, quantResponse, (quantize_eq_none_iff f).2 h]
  rfl

theorem fin_lt_iff (a b : FinVal) : F64.lt (.fin a) (.fin b) = true ↔ a.toRat < b.toRat := by
  rw [F64.lt, Bool.not_eq_true', Bool.eq_false_iff, ne_eq, fin_le_iff, not_le]

theorem zero_toRat : FinVal.toRat ⟨false, 0⟩ = 0 := (toRat_eq_zero_iff _).2 rfl

theorem toRat_lt_zero_iff (y : FinVal) : y.toRat < 0 ↔ y.neg = true ∧ y.mag ≠ 0 := by
  have hpos := div_nonneg (Nat.cast_nonneg (α := ℚ) y.mag) units_pos.le
  rw [ne_eq, ← toRat_eq_zero_iff, toRat_eq]
  cases y.neg
  · simpa using hpos
  · simpa [lt_iff_le_and_ne] using fun _ => hpos

theorem toRat_of_nonneg {y : FinVal} (h : 0 ≤ y.toRat) : y.toRat = y.mag / 2 ^ 1074 := by
  rw [← abs_toRat, abs_of_nonneg h]

/-- The clamp below the range. -/
theorem quantClamp_of_neg {y : FinVal} (h : y.toRat < 0) : quantClamp (.fin y) = 0 := by
  rw [quantClamp, if_pos ((toRat_lt_zero_iff y).1 h)]

/-- The clamp above the range. -/
theorem quantClamp_of_ge {y : FinVal} (h : 4095 ≤ y.toRat) : quantClamp (.fin y) = 4095 := by
  have h0 : 0 ≤ y.toRat := by linarith
  rw [toRat_of_nonneg h0, le_div_iff₀ units_pos, ← F64.cast_one] at h
  have hmag : Config.scale * F64.one ≤ y.mag := by exact_mod_cast h
  rw [quantClamp, if_neg (mt (toRat_lt_zero_iff y).2 h0.not_gt), if_pos hmag]
  rfl

/-- The floor inside the range. -/
theorem quantClamp_of_mem {y : FinVal} (h0 : 0 ≤ y.toRat) (h1 : y.toRat < 4095) :
    ((quantClamp (.fin y)).toNat : ℤ) = ⌊y.toRat⌋ := by
  have hx := toRat_of_nonneg h0
  rw [hx, div_lt_iff₀ units_pos, ← F64.cast_one] at h1
  have hmag : y.mag < Config.scale * F64.one := by exact_mod_cast h1
  have hq : y.mag / F64.one < 2 ^ 12 :=
    ((Nat.div_lt_iff_lt_mul F64.one_pos).2 hmag).trans (by decide)
  rw [quantClamp, if_neg (mt (toRat_lt_zero_iff y).2 h0.not_gt), if_neg hmag.not_ge, BitVec.toNat_ofNat,
    Nat.mod_eq_of_lt hq, hx, ← F64.cast_one, ← Nat.floor_div_eq_div (K := ℚ),
    Int.natCast_floor_eq_floor (div_nonneg (Nat.cast_nonneg _) (Nat.cast_nonneg _))]

theorem quantClamp_of_lt_zero {t : F64} (h : t.lt (.fin ⟨false, 0⟩) = true) : quantClamp t = 0 := by
  cases t with
  | inf s => cases s with
    | true => rfl
    | false => cases h
  | fin y => exact quantClamp_of_neg (((fin_lt_iff y _).1 h).trans_eq zero_toRat)

theorem quantClamp_of_ge_scale {t : F64} (h : F64.le (.fin (F64.ofNat 4095)) t = true) :
    quantClamp t = 4095 := by
  cases t with
  | inf s => cases s with
    | false => rfl
    | true => cases h
  | fin y => exact quantClamp_of_ge (by simpa [ofNat_toRat] using (fin_le_iff _ y).1 h)

theorem quantClamp_between {t : F64} (h0 : t.lt (.fin ⟨false, 0⟩) = false)
    (h1 : F64.le (.fin (F64.ofNat 4095)) t = false) :
    ∃ y : FinVal, t = .fin y ∧ ((quantClamp t).toNat : ℤ) = ⌊y.toRat⌋ := by
  cases t with
  | inf s => cases s with
    | false => cases h1
    | true => cases h0
  | fin y =>
    rw [Bool.eq_false_iff, ne_eq, fin_lt_iff, zero_toRat, not_lt] at h0
    rw [Bool.eq_false_iff, ne_eq, fin_le_iff, ofNat_toRat, not_le] at h1
    exact ⟨y, rfl, quantClamp_of_mem h0 (by exact_mod_cast h1)⟩

/-- Settles O17: the clamp and the floor of `t3`, one lemma for each of the three cases. -/
theorem quantEvaluatesTheFormula : Obligations.QuantEvaluatesTheFormula := by
  refine fun f s => ⟨fun h => exec_quant_nan h s, fun h => ?_⟩
  obtain ⟨x, hx⟩ := Option.ne_none_iff_exists'.1 (mt (ofWord_eq_none_iff f).1 h)
  exact ⟨x, quantOrdered x, hx, exec_quant_code hx s, quantClamp_of_lt_zero, quantClamp_of_ge_scale,
    quantClamp_between⟩

theorem startCheck_ne_rangeError (n len : Nat) : startCheck n len ≠ some .rangeError := by
  unfold startCheck
  split
  · nofun
  · split
    · nofun
    · split <;> nofun

/-- Settles O18: the errors of the other commands are LengthError and ConfigError. -/
theorem quantOfNaNIsTheOnlyRangeError : Obligations.QuantOfNaNIsTheOnlyRangeError := by
  refine ⟨fun f s h => exec_quant_nan h s, fun i s t h => ?_⟩
  have hx : exec i s = .next t := h.1
  cases i with
  | quant f =>
    obtain ⟨hr, -⟩ := completes_of_exec (exec_quant f s) rfl h
    refine ⟨f, rfl, (quantize_eq_none_iff f).1 ?_⟩
    cases hq : quantize f with
    | none => rfl
    | some q => simp [quantResponse, hq] at hr
  | dequant v => cases (completes_of_exec (exec_dequant v s) rfl h).1
  | pInit => cases (completes_of_exec (exec_pInit s) rfl h).1
  | pPush v =>
    obtain ⟨-, -, rfl⟩ | ⟨-, rfl⟩ := exec_pPush_cases hx <;> simp [completes] at h
  | pFlush =>
    obtain ⟨-, rfl⟩ | ⟨-, rfl⟩ := exec_pFlush_cases hx <;> simp [completes] at h
  | uStart n len bytes =>
    obtain ⟨-, -, rfl⟩ | ⟨e, he, rfl⟩ := exec_uStart_cases hx
    · simp [completes] at h
    · have hr : e = .rangeError := by simpa [completes] using h.2
      exact absurd (hr ▸ he) (startCheck_ne_rangeError n len)
  | uPop =>
    obtain ⟨-, v, rfl⟩ | ⟨-, rfl⟩ := exec_uPop_cases hx <;> simp [completes] at h

/-! ### QUANT keeps the order (section 2) -/

/-- A rounded monotone function of the value, which keeps the infinities, keeps the order of the data. -/
theorem le_of_rounds {op : F64 → F64} {g : ℚ → ℚ} (hg : Monotone g)
    (hop : ∀ a : FinVal, Rounds (g a.toRat) (op (.fin a))) (hinf : ∀ s, op (.inf s) = .inf s)
    {x y : F64} (h : F64.le x y = true) : F64.le (op x) (op y) = true := by
  cases x with
  | inf s => cases s with
    | true => rw [hinf]; rfl
    | false => cases y with
      | inf u => cases u with
        | true => cases h
        | false => rw [hinf]; rfl
      | fin b => cases h
  | fin a => cases y with
    | inf u => cases u with
      | true => cases h
      | false =>
        rw [hinf]
        cases op (.fin a) with
        | inf s => cases s <;> rfl
        | fin z => rfl
    | fin b => exact (hop a).le (hop b) (hg ((fin_le_iff a b).1 h))

theorem quantT3_le {x y : F64} (h : F64.le x y = true) : F64.le (quantT3 x) (quantT3 y) = true := by
  have h1 : F64.le (fdiv x F64.two) (fdiv y F64.two) = true :=
    le_of_rounds (op := (fdiv · F64.two)) (g := (· / F64.two.toRat))
      (fun p q hpq => by rw [two_toRat]; linarith) (fun a => fdiv_rounds a (by decide))
      (by simp [fdiv, F64.two]) h
  have h2 : F64.le (fadd (fdiv x F64.two) F64.half) (fadd (fdiv y F64.two) F64.half) = true :=
    le_of_rounds (op := (fadd · F64.half)) (g := (· + F64.half.toRat))
      (fun p q hpq => by linarith) (fun a => fadd_rounds a _) (fun _ => rfl) h1
  exact le_of_rounds (op := (fmul · (F64.ofNat Config.scale)))
      (g := (· * (F64.ofNat Config.scale).toRat))
      (fun p q hpq => by rw [ofNat_toRat]; exact mul_le_mul_of_nonneg_right hpq (Nat.cast_nonneg _))
      (fun a => fmul_rounds a _) (by simp [fmul, F64.ofNat]) h2

theorem quantClamp_toNat_le (t : F64) : (quantClamp t).toNat ≤ 4095 :=
  Nat.le_of_lt_succ (quantClamp t).isLt

/-- The clamp and the floor keep the order of the values. -/
theorem quantClamp_fin_mono {a b : FinVal} (h : a.toRat ≤ b.toRat) :
    (quantClamp (.fin a)).toNat ≤ (quantClamp (.fin b)).toNat := by
  rcases lt_or_ge a.toRat 0 with ha | ha
  · rw [quantClamp_of_neg ha]
    exact Nat.zero_le _
  rcases lt_or_ge b.toRat 4095 with hb | hb
  · have hfloor := Int.floor_le_floor h
    rw [← quantClamp_of_mem ha (h.trans_lt hb), ← quantClamp_of_mem (ha.trans h) hb] at hfloor
    exact_mod_cast hfloor
  · rw [quantClamp_of_ge hb]
    exact quantClamp_toNat_le _

theorem quantClamp_mono {t u : F64} (h : F64.le t u = true) :
    (quantClamp t).toNat ≤ (quantClamp u).toNat := by
  cases t with
  | inf s => cases s with
    | true => exact Nat.zero_le _
    | false => cases u with
      | inf s => cases s with
        | true => cases h
        | false => exact le_rfl
      | fin b => cases h
  | fin a => cases u with
    | inf s => cases s with
      | true => cases h
      | false => exact quantClamp_toNat_le _
    | fin b => exact quantClamp_fin_mono ((fin_le_iff a b).1 h)

theorem quantOrdered_mono {x y : F64} (h : F64.le x y = true) :
    (quantOrdered x).toNat ≤ (quantOrdered y).toNat :=
  quantClamp_mono (quantT3_le h)

/-- Settles O21: each operation, the clamp and the floor keep the order. -/
theorem quantIsMonotone : Obligations.QuantIsMonotone := by
  intro f g x y s hx hy h
  exact ⟨_, _, exec_quant_code hx s, exec_quant_code hy s, quantOrdered_mono h⟩

/-- Settles O20: the model evaluates the four operands. -/
theorem quantFixedPoints : Obligations.QuantFixedPoints := by
  have key : ∀ {f : Sample} {x : BitVec 64}, quantResponse f = .ok x → ∀ s : State,
      exec (.quant f) s = .next { s with responses := s.responses ++ [.ok x] } := by
    intro f x h s
    rw [exec_quant, h]
    rfl
  intro s
  exact ⟨key (by decide) s, key (by decide) s, key (by decide) s, key (by decide) s⟩

theorem F64.le_of_lt {x y : F64} (h : F64.lt x y = true) : F64.le x y = true := by
  cases x with
  | inf s => cases s with
    | true => rfl
    | false => cases y with
      | inf u => cases u <;> cases h
      | fin b => cases h
  | fin a => cases y with
    | inf s => cases s with
      | true => cases h
      | false => rfl
    | fin b => exact (fin_le_iff a b).2 ((fin_lt_iff a b).1 h).le

/-- Settles O19: QUANT keeps the order, and -1.0 gives 0 and 1.0 gives 4095. -/
theorem quantClamps : Obligations.QuantClamps := by
  intro f x s hx
  refine ⟨quantOrdered x, exec_quant_code hx s, quantClamp_of_lt_zero, quantClamp_of_ge_scale,
    fun h => ?_, fun h => ?_⟩
  · have hle := quantOrdered_mono (F64.le_of_lt h)
    rw [show quantOrdered (.fin ⟨true, F64.one⟩) = 0 by decide] at hle
    exact BitVec.eq_of_toNat_eq (Nat.le_zero.1 hle)
  · have hle := quantOrdered_mono (F64.le_of_lt h)
    rw [show quantOrdered (.fin ⟨false, F64.one⟩) = 4095 by decide] at hle
    exact BitVec.eq_of_toNat_eq (le_antisymm (quantClamp_toNat_le _) hle)

/-! ### The values next to 1/2, on the grid of 2^-54 -/

/-- A value of magnitude 1/4 or more is a whole number of steps of 2^-54. -/
theorem exists_grid {y : FinVal} (hy : HasPrecision y.mag) (h : 1 / 4 ≤ |y.toRat|) :
    ∃ d : ℤ, y.toRat = d / 2 ^ 54 := by
  have hU : (2 : ℚ) ^ 1074 = 2 ^ 54 * 2 ^ 1020 := by rw [← pow_add]
  have hP : (0 : ℚ) < 2 ^ 1020 := pow_pos two_pos _
  have hmag : 2 ^ (52 + 1020) ≤ y.mag := by
    rw [abs_toRat, hU, le_div_iff₀ (by positivity), ← mul_assoc] at h
    have : ((2 ^ (52 + 1020) : Nat) : ℚ) ≤ y.mag := by
      rw [Nat.cast_pow, pow_add]
      exact (mul_le_mul_of_nonneg_right (by norm_num) hP.le).trans h
    exact_mod_cast this
  obtain ⟨t, ht⟩ | ⟨-, hlt⟩ := hy.steps_or_below 1020
  · have hval : (y.mag : ℚ) / 2 ^ 1074 = t / 2 ^ 54 := by
      rw [ht, hU, Nat.cast_mul, Nat.cast_pow, Nat.cast_ofNat, mul_div_mul_right _ _ hP.ne']
    rw [toRat_eq, hval]
    cases y.neg
    · exact ⟨t, by simp⟩
    · exact ⟨-t, by simp [neg_div]⟩
  · exact absurd hlt hmag.not_gt

/-- Up to 1/2 every whole number of steps of 2^-54 is a binary64 value. -/
theorem isBinary64_grid {d : ℤ} (hd : d.natAbs ≤ 2 ^ 53) : IsBinary64 (d / 2 ^ 54) := by
  have hU : (2 : ℚ) ^ 1074 = 2 ^ 54 * 2 ^ 1020 := by rw [← pow_add]
  have hP : (2 : ℚ) ^ 1020 ≠ 0 := pow_ne_zero _ two_ne_zero
  obtain ⟨c, j, hc, hcj, -⟩ := exists_significand 1020 hd
  refine ⟨⟨decide (d < 0), d.natAbs * 2 ^ 1020⟩, ?_, ⟨c, j, hc, hcj⟩,
    (Nat.mul_le_mul_right (2 ^ 1020) hd).trans_lt (two_pow_mul_lt_pow2 (by simp))⟩
  rw [toRat_eq, hU, Nat.cast_mul, Nat.cast_pow, Nat.cast_ofNat, mul_div_mul_right _ _ hP, Nat.cast_natAbs]
  rcases lt_or_ge d 0 with h | h
  · simp [h, abs_of_neg h, neg_div]
  · simp [h.not_gt, abs_of_nonneg h]

theorem isBinary64_zero : IsBinary64 0 := by exact_mod_cast isBinary64_ofNat (v := 0) (by norm_num)

theorem isBinary64_one : IsBinary64 1 := by exact_mod_cast isBinary64_ofNat (v := 1) (by norm_num)

theorem isBinary64_half : IsBinary64 (1 / 2) := by
  have h := isBinary64_grid (d := 2 ^ 53) (by norm_num)
  norm_num at h ⊢
  exact h

theorem isBinary64_quarter : IsBinary64 (1 / 4) := by
  have h := isBinary64_grid (d := 2 ^ 52) (by norm_num)
  norm_num at h ⊢
  exact h

/-- A binary64 value between 1/4 and 1 less 1/2 is one. -/
theorem IsBinary64.sub_half {x : ℚ} (hx : IsBinary64 x) (h0 : 1 / 4 ≤ x) (h1 : x ≤ 1) :
    IsBinary64 (x - 1 / 2) := by
  obtain ⟨y, rfl, hy, -⟩ := hx
  obtain ⟨d, hd⟩ := exists_grid hy (h0.trans (le_abs_self _))
  rw [hd] at h0 h1 ⊢
  rw [le_div_iff₀ (by positivity)] at h0
  rw [div_le_one (by positivity)] at h1
  have hd0 : 0 ≤ d := by exact_mod_cast (show (0 : ℚ) ≤ 1 / 4 * 2 ^ 54 by positivity).trans h0
  have hd1 : d ≤ 2 ^ 54 := by exact_mod_cast h1
  have hgrid := isBinary64_grid (d := d - 2 ^ 53) (by omega)
  have hval : ((d - 2 ^ 53 : ℤ) : ℚ) / 2 ^ 54 = d / 2 ^ 54 - 1 / 2 := by push_cast; ring
  rwa [hval] at hgrid

/-- Twice a binary64 value up to 1/2 is one. -/
theorem IsBinary64.mul_two {x : ℚ} (hx : IsBinary64 x) (h : |x| ≤ 1 / 2) : IsBinary64 (x * 2) := by
  obtain ⟨u, rfl, ⟨c, k, hc, hck⟩, -⟩ := hx
  have hval : FinVal.toRat ⟨u.neg, u.mag * 2⟩ = u.toRat * 2 := by
    rw [toRat_eq, toRat_eq, Nat.cast_mul, mul_div_right_comm, mul_assoc, Nat.cast_ofNat]
  refine ⟨_, hval, ⟨c, k + 1, hc, by rw [hck]; ring⟩, ?_⟩
  have hle : |FinVal.toRat ⟨u.neg, u.mag * 2⟩| ≤ 1 := by rw [hval, abs_mul, abs_two]; linarith
  rw [abs_toRat, div_le_one units_pos, ← F64.cast_one, Nat.cast_le] at hle
  exact hle.trans_lt (by decide)

/-! ### DEQUANT (R76) -/

/-- The data `u1`, `u2`, `u3` of the three operations of DEQUANT, and their values: how far the first two
can be from the exact ones, and that the third is exact. -/
structure DequantSteps (v : Code) (u1 u2 u3 : FinVal) : Prop where
  div : fdiv (.fin (F64.ofNat v.toNat)) (F64.ofNat 4095) = .fin u1
  sub : fsub (.fin u1) F64.half = .fin u2
  mul : fmul (.fin u2) F64.two = .fin u3
  divRounds : Rounds (v.toNat / 4095) (.fin u1)
  subRounds : Rounds (u1.toRat - 1 / 2) (.fin u2)
  mulRounds : Rounds (u2.toRat * 2) (.fin u3)
  divNear : |u1.toRat - v.toNat / 4095| ≤ 1 / 2 / 2 ^ 52
  subNear : |u2.toRat - (u1.toRat - 1 / 2)| ≤ 1 / 2 / 2 ^ 53
  divMem : 0 ≤ u1.toRat ∧ u1.toRat ≤ 1
  subMem : -(1 / 2) ≤ u2.toRat ∧ u2.toRat ≤ 1 / 2
  mulExact : u3.toRat = u2.toRat * 2

theorem exists_dequantSteps (v : Code) : ∃ u1 u2 u3, DequantSteps v u1 u2 u3 := by
  have hv0 : (0 : ℚ) ≤ v.toNat / 4095 := by positivity
  have hv1 : (v.toNat : ℚ) / 4095 ≤ 1 := by
    rw [div_le_one (by norm_num)]
    exact_mod_cast Nat.le_of_lt_succ v.isLt
  have r1 := fdiv_rounds (F64.ofNat v.toNat) (b := F64.ofNat 4095) (by decide)
  rw [ofNat_toRat, ofNat_toRat, Nat.cast_ofNat] at r1
  obtain ⟨u1, h1, near1⟩ := r1.near 52 (by norm_num) (by linarith) (by linarith)
  rw [h1] at r1
  have lo1 := r1.ge_of_ge isBinary64_zero hv0
  have hi1 := r1.le_of_le isBinary64_one hv1
  have r2 := fsub_rounds u1 F64.half
  rw [half_toRat] at r2
  obtain ⟨u2, h2, near2⟩ := r2.near 53 (by norm_num) (by linarith) (by linarith)
  rw [h2] at r2
  have lo2 := r2.ge_of_ge isBinary64_half.neg (by linarith)
  have hi2 := r2.le_of_le isBinary64_half (by linarith)
  have r3 := fmul_rounds u2 F64.two
  rw [two_toRat] at r3
  have exact3 : IsBinary64 (u2.toRat * 2) := r2.isBinary64.mul_two (abs_le.2 ⟨lo2, hi2⟩)
  obtain ⟨u3, h3, -⟩ := r3.near 52 (by norm_num) (by linarith) (by linarith)
  rw [h3] at r3
  exact ⟨u1, u2, u3, h1, h2, h3, r1, r2, r3, near1, near2, ⟨lo1, hi1⟩,
    ⟨lo2, hi2⟩, r3.exact exact3⟩

theorem DequantSteps.dequantU3_eq {v : Code} {u1 u2 u3 : FinVal} (h : DequantSteps v u1 u2 u3) :
    dequantU3 v = .fin u3 := by
  rw [dequantU3, Config.scale, h.div, h.sub, h.mul]

theorem DequantSteps.word {v : Code} {u1 u2 u3 : FinVal} (h : DequantSteps v u1 u2 u3) :
    dequantize v = F64.toWord (.fin u3) := by
  rw [dequantize, h.dequantU3_eq]

theorem DequantSteps.ofWord {v : Code} {u1 u2 u3 : FinVal} (h : DequantSteps v u1 u2 u3) :
    F64.ofWord (dequantize v) = some (.fin u3) := by
  obtain ⟨hp, hlt⟩ := h.mulRounds.hasPrecision
  rw [h.word]
  exact ofWord_toWord u3.neg hp hlt

/-- The subtraction is exact from 1/4 on. -/
theorem DequantSteps.sub_exact {v : Code} {u1 u2 u3 : FinVal} (h : DequantSteps v u1 u2 u3)
    (hu : 1 / 4 ≤ u1.toRat) : u2.toRat = u1.toRat - 1 / 2 :=
  h.subRounds.exact (h.divRounds.isBinary64.sub_half hu h.divMem.2)

/-- No code is half of the scale, so the subtraction does not give 0. -/
theorem DequantSteps.sub_ne_zero {v : Code} {u1 u2 u3 : FinVal} (h : DequantSteps v u1 u2 u3) :
    u2.toRat ≠ 0 := by
  intro h0
  have hd := abs_le.1 h.divNear
  have hs := abs_le.1 h.subNear
  rw [h0] at hs
  norm_num at hd hs
  rcases Nat.lt_or_ge v.toNat 2048 with hlt | hge
  · have : (v.toNat : ℚ) ≤ 2047 := by exact_mod_cast Nat.le_of_lt_succ hlt
    linarith
  · have : (2048 : ℚ) ≤ v.toNat := by exact_mod_cast hge
    linarith

theorem scale_coprime_pow2 (n : Nat) : Nat.Coprime 4095 (pow2 n) := by
  rw [pow2_eq]
  exact Nat.Coprime.pow_right n (by norm_num)

/-- The division is exact at the ends of the scale only: 4095 and 2^1074 have no common factor. -/
theorem DequantSteps.div_exact_iff {v : Code} {u1 u2 u3 : FinVal} (h : DequantSteps v u1 u2 u3) :
    u1.toRat = v.toNat / 4095 ↔ v = 0 ∨ v = 4095 := by
  constructor
  · intro heq
    have hval := toRat_of_nonneg h.divMem.1
    rw [heq, div_eq_div_iff (by norm_num) units_pos.ne', ← F64.cast_one] at hval
    have hnat : v.toNat * F64.one = u1.mag * 4095 := by exact_mod_cast hval
    have hco : Nat.Coprime 4095 F64.one := scale_coprime_pow2 1074
    have hdvd : 4095 ∣ v.toNat := hco.dvd_of_dvd_mul_right (Dvd.intro_left u1.mag hnat.symm)
    have hlt := v.isLt
    have hends : v.toNat = 0 ∨ v.toNat = 4095 := by omega
    exact hends.imp BitVec.eq_of_toNat_eq BitVec.eq_of_toNat_eq
  · rintro (rfl | rfl)
    · exact h.divRounds.exact (by simpa using isBinary64_zero)
    · exact h.divRounds.exact (by simpa using isBinary64_one)

/-- Settles O23: the values of the three steps, and the five listed words as the model evaluates them. -/
theorem dequantEvaluatesTheFormula : Obligations.DequantEvaluatesTheFormula := by
  refine ⟨fun v s => ?_, by decide, by decide, by decide, by decide, by decide⟩
  obtain ⟨u1, u2, u3, h⟩ := exists_dequantSteps v
  obtain ⟨hlo, hhi⟩ := h.subMem
  have hword := h.ofWord
  have hexec := exec_dequant v s
  rw [h.word] at hword hexec
  refine ⟨u1, u2, u3, h.div, h.sub, h.mul, hexec, hword, ?_, ?_, ?_, h.div_exact_iff,
    h.sub_exact, h.mulExact⟩
  · rw [h.mulExact]
    exact mul_ne_zero h.sub_ne_zero two_ne_zero
  · rw [h.mulExact]; linarith
  · rw [h.mulExact]; linarith

/-! ### The quantization error (R77) -/

/-- The data `t1`, `t2`, `t3` of the three operations of QUANT for an operand in [-1, 1], how far each can be
from the exact value, and the range of the last. -/
structure QuantSteps (x t1 t2 t3 : FinVal) : Prop where
  quantT3 : quantT3 (.fin x) = .fin t3
  divNear : |t1.toRat - x.toRat / 2| ≤ 1 / 2 / 2 ^ 53
  addNear : |t2.toRat - (t1.toRat + 1 / 2)| ≤ 1 / 2 / 2 ^ 52
  mulNear : |t3.toRat - t2.toRat * 4095| ≤ 1 / 2 / 2 ^ 41
  mulMem : 0 ≤ t3.toRat ∧ t3.toRat ≤ 4095

theorem isBinary64_scale : IsBinary64 4095 := by exact_mod_cast isBinary64_ofNat (v := 4095) (by norm_num)

theorem exists_quantSteps {x : FinVal} (h0 : -1 ≤ x.toRat) (h1 : x.toRat ≤ 1) :
    ∃ t1 t2 t3, QuantSteps x t1 t2 t3 := by
  have r1 := fdiv_rounds x (b := F64.two) (by decide)
  rw [two_toRat] at r1
  obtain ⟨t1, e1, near1⟩ := r1.near 53 (by norm_num) (by linarith) (by linarith)
  rw [e1] at r1
  have lo1 := r1.ge_of_ge isBinary64_half.neg (by linarith)
  have hi1 := r1.le_of_le isBinary64_half (by linarith)
  have r2 := fadd_rounds t1 F64.half
  rw [half_toRat] at r2
  obtain ⟨t2, e2, near2⟩ := r2.near 52 (by norm_num) (by linarith) (by linarith)
  rw [e2] at r2
  have lo2 := r2.ge_of_ge isBinary64_zero (by linarith)
  have hi2 := r2.le_of_le isBinary64_one (by linarith)
  have r3 := fmul_rounds t2 (F64.ofNat Config.scale)
  rw [ofNat_toRat, show ((Config.scale : Nat) : ℚ) = 4095 from rfl] at r3
  obtain ⟨t3, e3, near3⟩ := r3.near 41 (by norm_num) (by linarith) (by linarith)
  rw [e3] at r3
  exact ⟨t1, t2, t3, by rw [quantT3, e1, e2, e3], near1, near2, near3,
    r3.ge_of_ge isBinary64_zero (by linarith), r3.le_of_le isBinary64_scale (by linarith)⟩

/-- In the range of the codes the clamp is the floor, the upper end included. -/
theorem quantClamp_floor {t : FinVal} (h0 : 0 ≤ t.toRat) (h1 : t.toRat ≤ 4095) :
    ((quantClamp (.fin t)).toNat : ℚ) ≤ t.toRat ∧ t.toRat < (quantClamp (.fin t)).toNat + 1 := by
  rcases h1.lt_or_eq with hlt | heq
  · have hq : ((quantClamp (.fin t)).toNat : ℚ) = (⌊t.toRat⌋ : ℤ) := by
      rw [← quantClamp_of_mem h0 hlt, Int.cast_natCast]
    rw [hq]
    exact ⟨Int.floor_le _, Int.lt_floor_add_one _⟩
  · rw [quantClamp_of_ge heq.ge, heq, show (4095 : Code).toNat = 4095 from rfl]
    norm_num

/-- The error of DEQUANT: `u3` is within 3 * 2^-53 of the exact value. -/
theorem DequantSteps.near {v : Code} {u1 u2 u3 : FinVal} (h : DequantSteps v u1 u2 u3) :
    |u3.toRat - (v.toNat / 4095 - 1 / 2) * 2| ≤ 3 / 2 ^ 53 := by
  have hd := abs_le.1 h.divNear
  have hs := abs_le.1 h.subNear
  rw [h.mulExact, abs_le]
  constructor <;> linarith

/-- The error of QUANT before the floor, as an error of the operand. -/
theorem QuantSteps.near {x t1 t2 t3 : FinVal} (h : QuantSteps x t1 t2 t3) :
    |x.toRat - (t3.toRat / 4095 - 1 / 2) * 2| ≤ 9 / 2 / 2 ^ 53 := by
  have hd := abs_le.1 h.divNear
  have ha := abs_le.1 h.addNear
  have hm := abs_le.1 h.mulNear
  rw [abs_le]
  constructor <;> linarith

/-- The value next below 1. -/
theorem below_one_toRat : FinVal.toRat ⟨false, 9007199254740991 * pow2 1021⟩ = 1 - 1 / 2 ^ 53 := by
  have hU : (2 : ℚ) ^ 1074 = 2 ^ 53 * 2 ^ 1021 := by rw [← pow_add]
  rw [toRat_eq, signOf_false, Nat.cast_mul, cast_pow2, hU,
    mul_div_mul_right _ _ (pow_ne_zero _ two_ne_zero)]
  norm_num

/-- Settles O57: the floor loses less than a step, and the roundings of QUANT and DEQUANT together less
than 2^-50. -/
theorem quantizationError : Obligations.QuantizationError := by
  refine ⟨fun f x hf h0 h1 => ?_, ?_⟩
  · obtain ⟨t1, t2, t3, ht⟩ := exists_quantSteps h0 h1
    obtain ⟨u1, u2, u3, hu⟩ := exists_dequantSteps (quantClamp (.fin t3))
    obtain ⟨hlo, hhi⟩ := quantClamp_floor ht.mulMem.1 ht.mulMem.2
    have hx := abs_le.1 ht.near
    have hy := abs_le.1 hu.near
    refine ⟨_, u3, ?_, hu.ofWord, ?_, ?_⟩
    · rw [quantize, hf, Option.map_some, quantOrdered, ht.quantT3]
    · linarith
    · linarith
  · refine ⟨⟨false, 9007199254740991 * pow2 1021⟩, F64.ofNat 1, by decide, by decide, by decide, ?_⟩
    rw [below_one_toRat, ofNat_toRat, Nat.cast_one, sub_sub_cancel_left]

/-! ### Rounding in units of 2^-66

Between 2^-14 and 2^12 rounding does not depend on the unit, so QUANT of DEQUANT can be followed on small
numbers. -/

theorem roundHalfEven_mul_right (a : Nat) {b c : Nat} (hb : 0 < b) (hc : 0 < c) :
    roundHalfEven (a * c) (b * c) = roundHalfEven a b :=
  le_antisymm (roundHalfEven_mono (Nat.mul_pos hb hc) hb (by rw [Nat.mul_assoc, Nat.mul_comm c]))
    (roundHalfEven_mono hb (Nat.mul_pos hb hc) (by rw [Nat.mul_assoc, Nat.mul_comm c]))

theorem roundMag_mul_right (a : Nat) {b c : Nat} (hb : 0 < b) (hc : 0 < c) :
    roundMag (a * c) (b * c) = roundMag a b :=
  le_antisymm (roundMag_mono (Nat.mul_pos hb hc) hb (by rw [Nat.mul_assoc, Nat.mul_comm c]))
    (roundMag_mono hb (Nat.mul_pos hb hc) (by rw [Nat.mul_assoc, Nat.mul_comm c]))

/-- Rounding of a quotient whose binade is known. -/
theorem roundMag_of_binade {a b k : Nat} (hb : 0 < b) (hlo : 2 ^ (52 + k) * b ≤ a)
    (hhi : a < 2 ^ (53 + k) * b) :
    roundMag a b = roundHalfEven a (b * 2 ^ k) * 2 ^ k := by
  have hlo' := (Nat.le_div_iff_mul_le hb).2 hlo
  have hhi' := (Nat.div_lt_iff_lt_mul hb).2 hhi
  have hne : a / b ≠ 0 := ((Nat.two_pow_pos _).trans_le hlo').ne'
  have hlog : (a / b).log2 = 52 + k := (Nat.log2_eq_iff hne).2 ⟨hlo', by rwa [Nat.add_right_comm]⟩
  rw [roundMag_eq, hlog, Nat.add_sub_cancel_left]

/-- Above the smallest normal magnitude rounding does not depend on the unit. -/
theorem roundMag_scale {a b : Nat} (s : Nat) (hb : 0 < b) (h : 2 ^ 52 * b ≤ a) :
    roundMag (a * pow2 s) b = roundMag a b * pow2 s := by
  rw [pow2_eq]
  have hq := (Nat.le_div_iff_mul_le hb).2 h
  have hne : a / b ≠ 0 := ((Nat.two_pow_pos _).trans_le hq).ne'
  obtain ⟨k, hk⟩ := Nat.exists_eq_add_of_le ((Nat.le_log2 hne).2 hq)
  have hlo : 2 ^ (52 + k) * b ≤ a := (Nat.le_div_iff_mul_le hb).1 (hk ▸ Nat.log2_self_le hne)
  have hhi : a < 2 ^ (53 + k) * b := by
    have hlt := Nat.lt_log2_self (n := a / b)
    rw [hk, Nat.add_right_comm] at hlt
    exact (Nat.div_lt_iff_lt_mul hb).1 hlt
  have hs := Nat.two_pow_pos s
  have hlo' : 2 ^ (52 + (k + s)) * b ≤ a * 2 ^ s := by
    rw [← Nat.add_assoc, Nat.pow_add, Nat.mul_right_comm]
    exact Nat.mul_le_mul_right _ hlo
  have hhi' : a * 2 ^ s < 2 ^ (53 + (k + s)) * b := by
    rw [← Nat.add_assoc, Nat.pow_add, Nat.mul_right_comm]
    exact Nat.mul_lt_mul_of_pos_right hhi hs
  rw [roundMag_of_binade hb hlo' hhi', roundMag_of_binade hb hlo hhi, Nat.pow_add,
    ← Nat.mul_assoc b, roundHalfEven_mul_right a (Nat.mul_pos hb (Nat.two_pow_pos k)) hs,
    ← Nat.mul_assoc]

/-- A value nearer than half a step to a whole number of steps is rounded to it. -/
theorem roundMag_eq_of_near {a c k : Nat} (hlo : 2 ^ (52 + k) ≤ a) (hhi : a < 2 ^ (53 + k))
    (hbelow : 2 * (c * 2 ^ k) < 2 * a + 2 ^ k) (habove : 2 * a < 2 * (c * 2 ^ k) + 2 ^ k) :
    roundMag a 1 = c * 2 ^ k := by
  rw [roundMag_of_binade Nat.one_pos (by rwa [Nat.mul_one]) (by rwa [Nat.mul_one]), Nat.one_mul]
  obtain ⟨h1, h2, -⟩ := roundHalfEven_spec a (Nat.two_pow_pos k)
  generalize roundHalfEven a (2 ^ k) = r at *
  have hcr : c * 2 ^ k < (r + 1) * 2 ^ k := by rw [Nat.add_mul] at h1 ⊢; rw [Nat.mul_assoc] at h1; omega
  have hrc : r * 2 ^ k < (c + 1) * 2 ^ k := by rw [Nat.add_mul]; rw [Nat.mul_assoc] at h2; omega
  have := Nat.lt_of_mul_lt_mul_right hcr
  have := Nat.lt_of_mul_lt_mul_right hrc
  rw [show r = c by omega]

/-! ### QUANT of DEQUANT -/

/-- `u1` of DEQUANT in units of 2^-66. -/
def dequantU1Units (v : Nat) : Nat := roundMag (v * 2 ^ 66) 4095

/-- `u2` of DEQUANT in units of 2^-66, negated, where `u1` is below 1/4. -/
def dequantU2Units (v : Nat) : Nat := roundMag (2 ^ 65 - dequantU1Units v) 1

/-- The floor of `t3` of QUANT, for a `t2` of `m` units of 2^-66. -/
def quantT2Units (m : Nat) : Nat := roundMag (m * 4095) 1 / 2 ^ 66

/-- From 1/4 on, multiplying by 4095 undoes the division by it: the error of the division becomes less than
half a step. -/
theorem roundMag_dequantU1Units_mul {v j : Nat} (hj : j = 12 ∨ j = 13) (hlo : 2 ^ j < 4 * v)
    (hhi : 2 * v < 2 ^ j) (hv : v < 4095) :
    roundMag (dequantU1Units v * 4095) 1 = v * 2 ^ 66 := by
  have hD : 2 ^ j = 4096 ∨ 2 ^ j = 8192 := hj.imp (fun h => by rw [h]; rfl) (fun h => by rw [h]; rfl)
  have herr := abs_le.1 (abs_roundMag_sub_le (a := v * 2 ^ 66) (b := 4095) (j := j) (by norm_num)
    (by rw [Nat.pow_add]; omega))
  rw [← dequantU1Units] at herr
  generalize dequantU1Units v = r at *
  have h1 : 2 * (r * 4095) ≤ 2 * (v * 2 ^ 66) + 2 ^ j * 4095 := by
    have h := herr.2
    push_cast at h
    have : 2 * ((r : ℚ) * 4095) ≤ 2 * (v * 2 ^ 66) + 2 ^ j * 4095 := by linarith
    exact_mod_cast this
  have h2 : 2 * (v * 2 ^ 66) ≤ 2 * (r * 4095) + 2 ^ j * 4095 := by
    have h := herr.1
    push_cast at h
    have : 2 * ((v : ℚ) * 2 ^ 66) ≤ 2 * (r * 4095) + 2 ^ j * 4095 := by linarith
    exact_mod_cast this
  have hc : v * 2 ^ (54 - j) * 2 ^ (j + 12) = v * 2 ^ 66 := by
    rw [Nat.mul_assoc, ← Nat.pow_add, show 54 - j + (j + 12) = 66 by omega]
  have hk : 2 ^ (52 + (j + 12)) = 2 ^ j * 2 ^ 64 ∧ 2 ^ (53 + (j + 12)) = 2 ^ j * 2 ^ 65 ∧
      2 ^ (j + 12) = 2 ^ j * 2 ^ 12 :=
    ⟨by rw [← Nat.pow_add, Nat.add_left_comm], by rw [← Nat.pow_add, Nat.add_left_comm], Nat.pow_add ..⟩
  obtain ⟨k1, k2, k3⟩ := hk
  rw [← hc]
  apply roundMag_eq_of_near
  · rw [k1]; omega
  · rw [k2]; omega
  · rw [hc, k3]; omega
  · rw [hc, k3]; omega

theorem quantT2Units_dequantU1Units {v : Nat} (hlo : 1024 ≤ v) (hhi : v ≤ 4095) :
    quantT2Units (dequantU1Units v) = v := by
  have hround : roundMag (dequantU1Units v * 4095) 1 = v * 2 ^ 66 := by
    rcases (by omega : v = 1024 ∨ (1024 < v ∧ v < 2048) ∨ v = 2048 ∨ (2048 < v ∧ v < 4095) ∨ v = 4095) with
      rfl | h | rfl | h | rfl
    · decide
    · exact roundMag_dequantU1Units_mul (.inl rfl) (by omega) (by omega) (by omega)
    · decide
    · exact roundMag_dequantU1Units_mul (.inr rfl) (by omega) (by omega) (by omega)
    · decide
  rw [quantT2Units, hround, Nat.mul_div_cancel _ (by simp)]

/-- The ranges of the codes that lose 1, all below 1/4 of the scale (40_quantizer.md section 4). -/
def lossyRanges : List (Nat × Nat) :=
  [(1, 32), (66, 93), (132, 163), (196, 219), (264, 295), (328, 343), (392, 423),
    (456, 471), (528, 559), (656, 687), (784, 815), (912, 943)]

def isLossy (n : Nat) : Bool := lossyRanges.any fun r => decide (r.1 ≤ n ∧ n ≤ r.2)

theorem isLossy_of_ge {n : Nat} (h : 944 ≤ n) : isLossy n = false := by
  simp [isLossy, lossyRanges]
  omega

/-- Below 1/4 the subtraction rounds too, in each binade on another grid: the codes are followed one by one. -/
theorem quantT2Units_low : ∀ n ∈ List.range 1024, n ≠ 0 →
    quantT2Units (2 ^ 65 - dequantU2Units n) = if isLossy n then n - 1 else n := by
  decide +kernel

/-- 2^-66 in units of 2^-1074. -/
@[irreducible] def unit66 : Nat := pow2 1008

theorem unit66_pos : 0 < unit66 := by
  rw [unit66]
  exact pow2_pos 1008

theorem pow2_eq_mul_unit66 (j : Nat) : pow2 (j + 1008) = 2 ^ j * unit66 := by
  rw [unit66]
  exact pow2_add j 1008

theorem one_eq_unit66 : F64.one = 2 ^ 66 * unit66 := pow2_eq_mul_unit66 66

theorem half_eq_unit66 : F64.half = ⟨false, 2 ^ 65 * unit66⟩ :=
  congrArg (FinVal.mk false) (pow2_eq_mul_unit66 65)

theorem mul_unit66_toRat (neg : Bool) (m : Nat) :
    FinVal.toRat ⟨neg, m * unit66⟩ = signOf neg * (m / 2 ^ 66) := by
  have hpos : (unit66 : ℚ) ≠ 0 := by exact_mod_cast unit66_pos.ne'
  rw [toRat_eq, ← F64.cast_one, one_eq_unit66, Nat.cast_mul, Nat.cast_mul, mul_div_mul_right _ _ hpos, Nat.cast_pow,
    Nat.cast_ofNat]

theorem roundMag_mul_unit66 {a b : Nat} (hb : 0 < b) (h : 2 ^ 52 * b ≤ a) :
    roundMag (a * unit66) b = roundMag a b * unit66 := by
  rw [unit66]
  exact roundMag_scale 1008 hb h

/-- The clamp and the floor of `t3`, from `t2` in units of 2^-66. -/
theorem quantClamp_fmul_units {m : Nat} (hlo : 2 ^ 52 ≤ m) (hhi : m ≤ 2 ^ 66) :
    quantClamp (fmul (.fin ⟨false, m * unit66⟩) (F64.ofNat Config.scale)) =
      BitVec.ofNat 12 (quantT2Units m) := by
  have hT : roundMag (m * 4095) 1 ≤ 4095 * 2 ^ 66 := by
    rw [← roundMag_exact (c := 4095) (k := 66) (by simp)]
    exact roundMag_mono Nat.one_pos Nat.one_pos (by omega)
  have hmag : roundMag (m * unit66 * (Config.scale * F64.one)) F64.one =
      roundMag (m * 4095) 1 * unit66 := by
    have h := roundMag_mul_right (m * 4095 * unit66) Nat.one_pos F64.one_pos
    rw [roundMag_mul_unit66 Nat.one_pos (by omega), Nat.one_mul] at h
    rw [← h, Nat.mul_mul_mul_comm, ← Nat.mul_assoc, Config.scale]
  have hfin : roundMag (m * unit66 * (Config.scale * F64.one)) F64.one < pow2 2098 := by
    rw [hmag]
    refine (Nat.mul_le_mul_right _ (hT.trans (by norm_num : _ ≤ 2 ^ 78))).trans_lt ?_
    rw [← pow2_eq_mul_unit66 78]
    decide
  have hq : fmul (.fin ⟨false, m * unit66⟩) (F64.ofNat Config.scale) =
      .fin ⟨false, roundMag (m * 4095) 1 * unit66⟩ := by
    rw [← hmag]
    exact rne64_of_lt false hfin
  have hscale : Config.scale * F64.one = 4095 * 2 ^ 66 * unit66 := by
    rw [one_eq_unit66, Nat.mul_assoc, Config.scale]
  rw [hq, quantClamp, if_neg (fun hneg => Bool.noConfusion hneg.1), hscale, quantT2Units]
  split
  · next h =>
    have heq := le_antisymm hT (Nat.le_of_mul_le_mul_right h unit66_pos)
    rw [heq]
    rfl
  · rw [one_eq_unit66, Nat.mul_div_mul_right _ _ unit66_pos]

theorem dequantU1Units_mem {v : Nat} (h0 : v ≠ 0) (h1 : v ≤ 4095) :
    2 ^ 52 ≤ dequantU1Units v ∧ dequantU1Units v ≤ 2 ^ 66 := by
  have hlo : 2 ^ 52 ≤ roundMag (1 * 2 ^ 66) 4095 := by decide
  have hhi : roundMag (4095 * 2 ^ 66) 4095 ≤ 2 ^ 66 := by decide
  exact ⟨hlo.trans (roundMag_mono (by simp) (by simp) (by omega)),
    (roundMag_mono (by simp) (by simp) (by omega)).trans hhi⟩

theorem dequantU1Units_low {v : Nat} (h : v < 1024) : dequantU1Units v ≤ 2 ^ 64 := by
  have hhi : roundMag (1023 * 2 ^ 66) 4095 ≤ 2 ^ 64 := by decide
  exact (roundMag_mono (by simp) (by simp) (by omega)).trans hhi

theorem dequantU2Units_mem {v : Nat} (h0 : v ≠ 0) (h1 : v < 1024) :
    2 ^ 64 ≤ dequantU2Units v ∧ dequantU2Units v ≤ 2 ^ 65 - 2 ^ 52 := by
  have hlo := dequantU1Units_low h1
  obtain ⟨hhi, -⟩ := dequantU1Units_mem h0 (by omega)
  have hlo' : 2 ^ 64 ≤ roundMag (2 ^ 64) 1 := by decide
  have hhi' : roundMag (2 ^ 65 - 2 ^ 52) 1 ≤ 2 ^ 65 - 2 ^ 52 := by decide
  exact ⟨hlo'.trans (roundMag_mono Nat.one_pos Nat.one_pos (by omega)),
    (roundMag_mono Nat.one_pos Nat.one_pos (by omega)).trans hhi'⟩

theorem fsub_of_lt {m n : Nat} (h : m < n) :
    fsub (.fin ⟨false, m⟩) ⟨false, n⟩ = rne64 true (n - m) 1 := by
  simp [fsub, fadd, h, h.not_gt]

/-- A positive value in units determines the datum. -/
theorem eq_of_toRat_pos {y : FinVal} {m : Nat} (hm : 0 < m) (h : y.toRat = FinVal.toRat ⟨false, m⟩) :
    y = ⟨false, m⟩ := by
  have hpos : 0 < FinVal.toRat ⟨false, m⟩ := by
    rw [toRat_eq, signOf_false, one_mul]
    exact div_pos (by exact_mod_cast hm) units_pos
  have hy := toRat_of_nonneg (hpos.le.trans_eq h.symm)
  have hmag : y.mag = m := by
    rw [h, toRat_eq, signOf_false, one_mul, div_left_inj' units_pos.ne', Nat.cast_inj] at hy
    exact hy.symm
  have hneg : y.neg ≠ true := by
    intro hs
    have := (toRat_lt_zero_iff y).2 ⟨hs, by omega⟩
    linarith
  cases y
  simp_all

section
variable {v : Code} {u1 u2 u3 : FinVal}

theorem DequantSteps.u1_eq (h : DequantSteps v u1 u2 u3) (hv : v.toNat ≠ 0) :
    u1 = ⟨false, dequantU1Units v.toNat * unit66⟩ := by
  have hmag : roundMag (v.toNat * F64.one * F64.one) (4095 * F64.one) =
      dequantU1Units v.toNat * unit66 := by
    rw [roundMag_mul_right _ (by simp) F64.one_pos, one_eq_unit66, ← Nat.mul_assoc,
      roundMag_mul_unit66 (by simp) (by omega), dequantU1Units]
  rw [← hmag]
  exact (rne64_eq_fin (neg := false) h.div).1

theorem DequantSteps.u2_eq (h : DequantSteps v u1 u2 u3) (hv : v.toNat ≠ 0) (hlow : v.toNat < 1024) :
    u2 = ⟨true, dequantU2Units v.toNat * unit66⟩ := by
  have hle := dequantU1Units_low hlow
  have hsub := h.sub
  rw [h.u1_eq hv, half_eq_unit66, fsub_of_lt (Nat.mul_lt_mul_of_pos_right (by omega) unit66_pos),
    ← Nat.sub_mul] at hsub
  rw [(rne64_eq_fin hsub).1, roundMag_mul_unit66 Nat.one_pos (by omega), dequantU2Units]

/-- The sum in units, below 1/4. -/
theorem DequantSteps.t2_eq_low (h : DequantSteps v u1 u2 u3) (hv : v.toNat ≠ 0) (hlow : v.toNat < 1024)
    {t2 : FinVal} (ht : t2.toRat = u2.toRat + 1 / 2) :
    t2 = ⟨false, (2 ^ 65 - dequantU2Units v.toNat) * unit66⟩ := by
  have hmem := dequantU2Units_mem hv hlow
  refine eq_of_toRat_pos (Nat.mul_pos (by omega) unit66_pos) ?_
  rw [ht, h.u2_eq hv hlow, mul_unit66_toRat, mul_unit66_toRat, signOf_true, signOf_false,
    Nat.cast_sub (by omega)]
  push_cast
  ring

/-- The sum of QUANT for a decoded sample is exact: either the subtraction of DEQUANT was, or `u2` lies on the
grid of 2^-54. -/
theorem DequantSteps.isBinary64_t2 (h : DequantSteps v u1 u2 u3) : IsBinary64 (u2.toRat + 1 / 2) := by
  rcases le_or_gt (1 / 4) u1.toRat with hu | hu
  · rw [h.sub_exact hu, sub_add_cancel]
    exact h.divRounds.isBinary64
  · have hle := h.subRounds.le_of_le isBinary64_quarter.neg (by linarith)
    have hneg : IsBinary64 (-u2.toRat) := h.subRounds.isBinary64.neg
    have hsub := (hneg.sub_half (by linarith) (by linarith [h.subMem.1])).neg
    rwa [neg_sub, sub_neg_eq_add, add_comm] at hsub

/-- QUANT of a decoded sample: the division by 2 and the sum are exact. -/
theorem DequantSteps.exists_t2 (h : DequantSteps v u1 u2 u3) :
    ∃ t2 : FinVal, quantOrdered (.fin u3) = quantClamp (fmul (.fin t2) (F64.ofNat Config.scale)) ∧
      t2.toRat = u2.toRat + 1 / 2 := by
  obtain ⟨hlo, hhi⟩ := h.subMem
  have r1 := fdiv_rounds u3 (b := F64.two) (by decide)
  rw [two_toRat, h.mulExact, mul_div_cancel_right₀ _ two_ne_zero] at r1
  obtain ⟨t1, e1, -⟩ := r1.near 53 (by norm_num) (by linarith) (by linarith)
  rw [e1] at r1
  have r2 := fadd_rounds t1 F64.half
  rw [half_toRat, r1.exact h.subRounds.isBinary64] at r2
  obtain ⟨t2, e2, -⟩ := r2.near 52 (by norm_num) (by linarith) (by linarith)
  rw [e2] at r2
  exact ⟨t2, by rw [quantOrdered, quantT3, e1, e2], r2.exact h.isBinary64_t2⟩

/-- QUANT of a decoded sample in units of 2^-66: the list of the spec below 1/4, and the code itself above. -/
theorem DequantSteps.quantOrdered_eq (h : DequantSteps v u1 u2 u3) (hv : v.toNat ≠ 0) :
    quantOrdered (.fin u3) = BitVec.ofNat 12 (if isLossy v.toNat then v.toNat - 1 else v.toNat) := by
  have hle := Nat.le_of_lt_succ v.isLt
  obtain ⟨t2, hq, ht2⟩ := h.exists_t2
  rw [hq]
  rcases Nat.lt_or_ge v.toNat 1024 with hlow | hhigh
  · have hmem := dequantU2Units_mem hv hlow
    rw [h.t2_eq_low hv hlow ht2, quantClamp_fmul_units (by omega) (by omega),
      quantT2Units_low _ (List.mem_range.2 hlow) hv]
  · obtain ⟨hlo, hhi⟩ := dequantU1Units_mem hv hle
    have hu : 1 / 4 ≤ u1.toRat := by
      have hv4 : (1024 : ℚ) ≤ v.toNat := by exact_mod_cast hhigh
      exact h.divRounds.ge_of_ge isBinary64_quarter (by linarith)
    rw [h.sub_exact hu, sub_add_cancel, h.u1_eq hv] at ht2
    rw [eq_of_toRat_pos (Nat.mul_pos (by omega) unit66_pos) ht2, quantClamp_fmul_units hlo hhi,
      isLossy_of_ge (by omega), quantT2Units_dequantU1Units hhigh hle]
    rfl

end

/-- Settles O24: the code 0 is evaluated, every other one is followed in units of 2^-66. -/
theorem quantAfterDequant : Obligations.QuantAfterDequant := by
  intro v n listed
  obtain ⟨u1, u2, u3, h⟩ := exists_dequantSteps v
  rw [quantize, h.ofWord, Option.map_some, Option.some_inj]
  rcases eq_or_ne v.toNat 0 with h0 | h0
  · obtain rfl : v = 0 := BitVec.eq_of_toNat_eq h0
    rw [← h.dequantU3_eq]
    decide
  rw [h.quantOrdered_eq h0]
  change BitVec.ofNat 12 (if isLossy v.toNat then v.toNat - 1 else v.toNat) =
    if isLossy v.toNat then v - 1 else v
  split
  · apply BitVec.eq_of_toNat_eq
    have := v.isLt
    simp
    omega
  · simp

end Sys2Proof.Machine

/-! # The packer (41_packer.md)

First what each command to unit P does in the states E and H (R90 to R93), then what a step does to the
bytes already emitted, then `pack` nibble by nibble (R94 to R96). -/

namespace Sys2Proof.Machine

/-! ### The commands (R90 to R93) -/

/-- Settles O26: the packer after P.INIT is the packer after reset. -/
theorem initStartsANewStream : Obligations.InitStartsANewStream := exec_pInit

/-- Settles O27: the nibble step in each of the two states. -/
theorem putNibbleFillsTheNextHalf : Obligations.PutNibbleFillsTheNextHalf := by
  simp only [Obligations.PutNibbleFillsTheNextHalf, ← byteOf_eq_append]
  exact fun p x h => ⟨putNibble_empty x, putNibble_half x h⟩

/-- Settles O28: the check refuses, or three nibble steps follow from one of the two states. -/
theorem pushWritesThreeNibbles : Obligations.PushWritesThreeNibbles := by
  simp only [Obligations.PushWritesThreeNibbles, ← byteOf_eq_append]
  intro v s h
  have haccept (hopen : s.p.isOpen = true) (hcnt : s.p.cnt ≠ Config.nmax) :=
    exec_pPush_accepted v ((pushCheck_eq_none_iff s.p).2 ⟨hopen, hcnt⟩)
  refine ⟨fun hrefused => ?_, fun hopen hcnt hf hc => ?_, fun hopen hcnt hf hc => ?_⟩
  · exact exec_pPush_refused v ((pushCheck_eq_some_iff s.p _).2 ⟨rfl, hrefused⟩)
  · rw [haccept hopen hcnt, push_empty v hf hc]
    rfl
  · rw [haccept hopen hcnt, push_half v h hf hc]
    rfl

/-- P.FLUSH of an open stream in state E emits nothing. -/
theorem exec_pFlush_empty {s : State} (hopen : s.p.isOpen = true) (hf : s.p.free = .empty) :
    exec .pFlush s =
      .next (State.respond { s with p := { s.p with isOpen := false } } (.ok 0)) := by
  rw [exec_pFlush_accepted ((flushCheck_eq_none_iff s.p).2 hopen), Packer.flush, finish_empty hf]

/-- P.FLUSH of an open stream in state H emits the byte being filled. -/
theorem exec_pFlush_half {s : State} (hopen : s.p.isOpen = true) (hf : s.p.free = .half) :
    exec .pFlush s = .next (State.respond { s with p := { s.p with
      cur := 0, free := .empty, isOpen := false, out := s.p.out ++ [s.p.cur] } } (.ok 0)) := by
  rw [exec_pFlush_accepted ((flushCheck_eq_none_iff s.p).2 hopen), Packer.flush, finish_half hf]

/-- Settles O29: the check refuses, or the emission is that of one of the two states; the invariant gives
the zero pad in state H. -/
theorem flushPadsAndCloses : Obligations.FlushPadsAndCloses := by
  refine fun s => ⟨fun hclosed => ?_, exec_pFlush_empty, exec_pFlush_half, fun hi hopen hf => ?_⟩
  · exact exec_pFlush_refused ((flushCheck_eq_some_iff s.p _).2 ⟨rfl, hclosed⟩)
  · have hcur : s.p.cur = s.p.cur.extractLsb' 4 4 ++ 0#4 :=
      (hi.cur_half hf).trans (byteOf_eq_append _ _)
    refine ⟨_, hcur, ?_⟩
    rw [← hcur]
    exact exec_pFlush_half hopen hf

/-- Settles O32: the invariant before and after the command gives the two lengths. -/
theorem bytesEmittedPerCommand : Obligations.BytesEmittedPerCommand := by
  refine fun s t hi => ⟨fun v ⟨hx, hr⟩ => ?_, fun ⟨hx, hr⟩ => ?_⟩
  · obtain ⟨hopen, hcnt, rfl⟩ | ⟨-, rfl⟩ := exec_pPush_cases hx
    · have hbefore := hi.lenOpen hopen
      have hafter := (Packer.push_inv v hi hopen hcnt).lenOpen ((push_isOpen v s.p).trans hopen)
      rw [push_cnt] at hafter
      rw [respond_p, hafter, hbefore]
      split <;> omega
    · simp at hr
  · obtain ⟨hopen, rfl⟩ | ⟨-, rfl⟩ := exec_pFlush_cases hx
    · have hbefore := hi.lenOpen hopen
      have hafter := (Packer.flush_inv hi hopen).lenClosed rfl
      rw [flush_cnt, finish_cnt] at hafter
      rw [respond_p, hafter, hbefore]
      split <;> omega
    · simp at hr

/-! ### Emitted bytes are final (20_memory.md section 2) -/

/-- Every command but P.INIT continues what is emitted. -/
theorem exec_out_continues {i : Instr} {s t : State} (h : exec i s = .next t) (hi : i ≠ .pInit) :
    s.p.out <+: t.p.out := by
  cases i with
  | pInit => exact absurd rfl hi
  | pPush v => exact (exec_pPush_frame h).2
  | pFlush => exact (exec_pFlush_frame h).2
  | _ => rw [exec_keeps_p h nofun]

/-- Settles O31: every step but those of P.INIT and the reset event continues what is emitted. -/
theorem emittedBytesAreFinal : Obligations.EmittedBytesAreFinal := by
  intro s t h hreset hinit k hk
  suffices hout : s.p.out <+: t.p.out from getElem?_of_continues hout hk
  obtain ⟨-, rfl⟩ | ⟨rest, hin, -⟩ | ⟨c, rest, hin, ⟨i, hd, hx⟩ | ⟨op, -, rfl⟩⟩ := step_cases h
  · exact List.prefix_rfl
  · exact absurd hin (hreset rest)
  · exact (exec_out_continues hx fun hi => hinit c rest hin (hi ▸ hd) :)
  · exact List.prefix_rfl

/-! ### `pack` (R94 to R96) -/

/-- Settles O33: the commands of PACK in sequence; no code leaves nothing. -/
theorem packRunsOnTheBlock : Obligations.PackRunsOnTheBlock := ⟨hostPack_eq, rfl⟩

/-- Nibble `j` of the codes is nibble `j mod 3` of code `j div 3`. -/
theorem getElem?_nibblesOf (vs : List Code) (j : Nat) :
    (nibblesOf vs)[j]? = (vs[j / 3]?).map fun v => codeNibble v (j % 3) := by
  induction vs generalizing j with
  | nil => simp [nibblesOf]
  | cons v vs ih =>
    rw [nibblesOf_cons]
    match j with
    | 0 => rfl
    | 1 => rfl
    | 2 => rfl
    | j + 3 =>
      rw [List.getElem?_append_right (by simp), length_codeNibbles, Nat.add_sub_cancel, ih,
        Nat.add_div_right j (by decide), List.getElem?_cons_succ, Nat.add_mod_right]

/-- The nibble after an odd number of them is the zero pad. -/
theorem nibbleAt_bytesOfNibbles_pad (ns : List Nibble) (h : ns.length % 2 = 1) :
    nibbleAt (bytesOfNibbles ns) ns.length = some 0 := by
  induction ns using bytesOfNibbles.induct with
  | case1 => cases h
  | case2 x => exact nibbleAt_byteOf_cons_one x 0 []
  | case3 x y ns ih =>
    rw [bytesOfNibbles, List.length_cons, List.length_cons, nibbleAt_cons_add_two]
    exact ih (by simpa [Nat.add_assoc] using h)

/-- The nibbles of a packed stream are its lanes (R95), the pad included. -/
theorem nibbleAt_pack_eq_laneOf {vs : List Code} {j : Nat} (hj : j < 2 * streamBytes vs.length) :
    nibbleAt (pack vs) j = laneOf vs j := by
  unfold streamBytes at hj
  unfold laneOf
  split
  · next hpad =>
    rw [pack_eq_bytesOfNibbles, hpad, ← length_nibblesOf]
    exact nibbleAt_bytesOfNibbles_pad _ (by rw [length_nibblesOf]; omega)
  · next hpad => rw [nibbleAt_pack vs (by omega), getElem?_nibblesOf]

/-- Settles O34: a byte is its two nibbles, and those of a packed stream are its lanes. -/
theorem packClosedForm : Obligations.PackClosedForm := by
  intro vs k hk
  have hlt : k < (pack vs).length := (length_pack vs).symm ▸ hk
  have hlane {j : Nat} (hj : j / 2 = k) : laneOf vs j = some (nibbleHalf (pack vs)[k] j) := by
    subst hj
    rw [← nibbleAt_pack_eq_laneOf (by rw [← length_pack]; omega), nibbleAt_of_lt hlt]
  refine ⟨_, _, hlane (by omega), hlane (by omega), ?_⟩
  rw [nibbleHalf_even _ (by omega), nibbleHalf_odd _ (by omega), ← byteOf_eq_append, byteOf_halves,
    List.getElem?_eq_getElem hlt]

/-- PutNibble over a sequence from state E emits one byte for every two nibbles. -/
theorem length_foldl_putNibble_out (ns : List Nibble) {p : Packer} (hf : p.free = .empty)
    (hc : p.cur = 0) :
    (ns.foldl (fun p x => p.putNibble x) p).out.length = p.out.length + ns.length / 2 := by
  induction ns using bytesOfNibbles.induct generalizing p with
  | case1 => rfl
  | case2 x => simp [putNibble_empty x hf hc]
  | case3 x y ns ih =>
    rw [List.foldl_cons, List.foldl_cons, putNibble_empty x hf hc, putNibble_half y x rfl rfl,
      ih rfl rfl]
    simp only [List.length_append, List.length_cons, List.length_nil]
    omega

/-- Settles O35: two nibbles make a byte, and the low half of the last byte of an odd count is lane `3n`. -/
theorem packLength : Obligations.PackLength := by
  refine fun vs => ⟨length_pack vs, ?_, fun hodd => ?_⟩
  · rw [length_foldl_putNibble_out _ rfl rfl, length_nibblesOf]
    exact Nat.zero_add _
  · have hlen : (pack vs).length = 3 * vs.length / 2 + 1 := by
      rw [length_pack, streamBytes]
      omega
    have hlt : 3 * vs.length / 2 < (pack vs).length := by omega
    have hpad : nibbleAt (pack vs) (3 * vs.length) = some 0 := by
      rw [nibbleAt_pack_eq_laneOf (by rw [← length_pack]; omega), laneOf, if_pos rfl]
    rw [nibbleAt_of_lt hlt, Option.some_inj, nibbleHalf_odd _ (by omega)] at hpad
    refine ⟨_, ?_, hpad⟩
    rw [List.getLast?_eq_getElem?, hlen, Nat.add_sub_cancel, List.getElem?_eq_getElem hlt]

end Sys2Proof.Machine

/-! # The unpacker (42_unpacker.md)

First what the checks of U.START answer and what a count and a length say of each other (R110), then the
cursor under the invariant of unit U (R112, R117), then UNPACK (R113 to R115): the codes that stand in a
byte sequence, and that UNPACK returns them. -/

namespace Sys2Proof.Machine

/-! ### U.START (R110) -/

theorem startCheck_eq_some_iff (n len : Nat) (e : Err) :
    startCheck n len = some e ↔
      (e = .lengthError ∧ n ≤ Config.nmax ∧ len < streamBytes n) ∨
      (e = .configError ∧ (Config.nmax < n ∨ streamBytes n < len)) := by
  unfold startCheck
  split
  · cases e <;> simp <;> omega
  · split
    · cases e <;> simp <;> omega
    · split <;> cases e <;> simp <;> omega

theorem startCheck_lengthError {n len : Nat} (hn : n ≤ Config.nmax) (hlen : len < streamBytes n) :
    startCheck n len = some .lengthError :=
  (startCheck_eq_some_iff n len _).2 (.inl ⟨rfl, hn, hlen⟩)

theorem startCheck_configError {n len : Nat} (h : Config.nmax < n ∨ streamBytes n < len) :
    startCheck n len = some .configError :=
  (startCheck_eq_some_iff n len _).2 (.inr ⟨rfl, h⟩)

/-- Settles O38: the three answers of the check, and the capture where it has none. -/
theorem startChecksAndCaptures : Obligations.StartChecksAndCaptures := by
  refine fun n len bytes s => ⟨fun hn => ?_, fun hn hlen => ?_, fun _ hlen => ?_, fun hn hlen => ?_⟩
  · exact exec_uStart_refused bytes s (startCheck_configError (.inl hn))
  · exact exec_uStart_refused bytes s (startCheck_lengthError hn hlen)
  · exact exec_uStart_refused bytes s (startCheck_configError (.inr hlen))
  · exact exec_uStart_accepted bytes s ((startCheck_eq_none_iff n len).2 ⟨hn, hlen⟩)

theorem completes_uStart_accepted {n len : Nat} (bytes : List Byte) (s : State)
    (h : startCheck n len = none) :
    completes (.uStart n len bytes) s (.ok 0)
      (State.respond { s with u := s.u.start n len bytes } (.ok 0)) :=
  ⟨exec_uStart_accepted bytes s h, rfl⟩

theorem completes_uStart_refused {n len : Nat} (bytes : List Byte) (s : State) {e : Err}
    (h : startCheck n len = some e) :
    completes (.uStart n len bytes) s (.error e) (s.respond (.error e)) :=
  ⟨exec_uStart_refused bytes s h, rfl⟩

/-- A stream of `n` codes has no length `3k + 1`, and its length determines `n`. -/
theorem eq_streamBytes_iff (n len : Nat) : len = streamBytes n ↔ len % 3 ≠ 1 ∧ n = 2 * len / 3 := by
  unfold streamBytes
  omega

/-- With `3k + 1` bytes, `2k` codes are too few and `2k + 1` too many. -/
theorem startCheck_of_mod_three {n len : Nat} (hlen : len % 3 = 1) (hn : n ≤ Config.nmax) :
    startCheck n len = some (if 2 * (len / 3) < n then .lengthError else .configError) := by
  split
  · exact startCheck_lengthError hn (by unfold streamBytes; omega)
  · exact startCheck_configError (.inr (by unfold streamBytes; omega))

/-- Settles O45: the arithmetic of `ceil(3n/2)`, through the checks of U.START. -/
theorem lengthDeterminesTheCount : Obligations.LengthDeterminesTheCount := by
  refine fun n len bytes s => ⟨fun t ⟨hx, hr⟩ => ?_, fun hmod hcount hn => ?_, fun hmod hn => ?_⟩
  · obtain ⟨-, hlen, -⟩ | ⟨e, -, rfl⟩ := exec_uStart_cases hx
    · exact (eq_streamBytes_iff n len).1 hlen
    · simp at hr
  · have hlen := (eq_streamBytes_iff n len).2 ⟨hmod, hcount⟩
    exact ⟨_, completes_uStart_accepted bytes s ((startCheck_eq_none_iff n len).2 ⟨hn, hlen⟩)⟩
  · exact ⟨_, completes_uStart_refused bytes s (startCheck_of_mod_three hmod hn)⟩

/-! ### The cursor (R112, R117) -/

/-- In a stream of `n` codes, the nibbles before the cursor and those of the codes left make `3n`. -/
theorem Unpacker.Inv.cursor {u : Unpacker} {n : Nat} (hi : u.Inv) (hlen : u.len = streamBytes n) :
    u.nib + 3 * u.rem = 3 * n := by
  obtain ⟨m, -, hcursor, hm⟩ := hi.count
  unfold streamBytes at hlen
  omega

/-- With a code left, its three nibbles stand in the captured stream. -/
theorem Unpacker.Inv.room {u : Unpacker} (hi : u.Inv) (hrem : u.rem ≠ 0) :
    u.nib + 3 ≤ 2 * u.src.length := by
  obtain ⟨m, -, hcursor, hm⟩ := hi.count
  have hsrc := hi.lenSrc
  omega

/-- Settles O39: the check refuses, or the invariant gives the three nibbles that U.POP reads. -/
theorem popReturnsTheNextCode : Obligations.PopReturnsTheNextCode := by
  refine fun s => ⟨fun h0 => (uPop_refused_of_rem_zero h0).1, fun hi hrem => ?_⟩
  have hroom := hi.room hrem
  have hsrc := hi.lenSrc
  have h0 := nibbleAt_of_lt (s := s.u.src) (j := s.u.nib) (by omega)
  have h1 := nibbleAt_of_lt (s := s.u.src) (j := s.u.nib + 1) (by omega)
  have h2 := nibbleAt_of_lt (s := s.u.src) (j := s.u.nib + 2) (by omega)
  exact ⟨_, _, _, _, h0, h1, h2, codeOf_toNat _ _ _,
    exec_uPop_accepted ((popCheck_eq_none_iff s.u).2 hrem) (pop_some (by omega) h0 h1 h2)⟩

/-- Settles O46: what each command does to the cursor; the invariant places it after the last code. -/
theorem cursorOnlyAdvances : Obligations.CursorOnlyAdvances := by
  refine ⟨fun i s t h => ?_, fun s t x n hi hlen hrem ⟨hx, hr⟩ => ?_, fun u n hi hlen hrem => ?_⟩
  · cases i with
    | uStart n len bytes =>
      obtain ⟨-, -, rfl⟩ | ⟨e, -, rfl⟩ := exec_uStart_cases h
      · exact .inr (.inl ⟨n, len, bytes, rfl, rfl, rfl⟩)
      · exact .inr (.inr ⟨rfl, nofun, fun _ _ _ _ => ⟨e, rfl⟩⟩)
    | uPop =>
      obtain ⟨-, v, rfl⟩ | ⟨-, rfl⟩ := exec_uPop_cases h
      · exact .inl ⟨rfl, ⟨_, rfl⟩, rfl⟩
      · exact .inr (.inr ⟨rfl, fun _ => rfl, nofun⟩)
    | _ => exact .inr (.inr ⟨by rw [exec_keeps_u h nofun], nofun, nofun⟩)
  · have hcursor := hi.cursor hlen
    obtain ⟨-, v, rfl⟩ | ⟨h0, -⟩ := exec_uPop_cases hx
    · simp only [respond_u]
      omega
    · omega
  · have hcursor := hi.cursor hlen
    omega

/-! ### The codes of a stream (R114) -/

/-- Code `i` of a stream is the code whose nibbles are `3i`, `3i + 1` and `3i + 2`. -/
theorem codeAt_eq_some_iff (bytes : List Byte) (i : Nat) (v : Code) :
    codeAt bytes i = some v ↔ ∀ k, k < 3 → nibbleAt bytes (3 * i + k) = some (codeNibble v k) := by
  constructor
  · intro h k hk
    unfold codeAt at h
    split at h
    · next n0 n1 n2 h0 h1 h2 =>
      have hv := codeNibbles_codeOf n0 n1 n2
      simp only [Option.some.injEq] at h
      simp only [h, codeNibbles, List.cons.injEq, and_true] at hv
      obtain ⟨rfl, rfl, rfl⟩ := hv
      match k with
      | 0 => exact h0
      | 1 => exact h1
      | 2 => exact h2
    · cases h
  · intro h
    have h0 := h 0 (by decide)
    have h1 := h 1 (by decide)
    have h2 := h 2 (by decide)
    rw [Nat.add_zero] at h0
    simp only [codeAt, h0, h1, h2, codeOf_codeNibbles]

/-- A code whose nibbles stand in the stream exists. -/
theorem exists_codeAt {bytes : List Byte} {i : Nat} (h : 3 * i + 3 ≤ 2 * bytes.length) :
    ∃ v, codeAt bytes i = some v := by
  unfold codeAt
  rw [nibbleAt_of_lt (by omega), nibbleAt_of_lt (by omega), nibbleAt_of_lt (by omega)]
  exact ⟨_, rfl⟩

/-- `vs` are the first codes of the stream `bytes`, in order. -/
def StartsWithCodes (bytes : List Byte) (vs : List Code) : Prop :=
  ∀ i, i < vs.length → codeAt bytes i = vs[i]?

/-- A stream with nibbles for `n` codes starts with `n` codes. -/
theorem exists_startsWithCodes {bytes : List Byte} {n : Nat} (h : 3 * n ≤ 2 * bytes.length) :
    ∃ vs, vs.length = n ∧ StartsWithCodes bytes vs := by
  have hcode : ∀ i, i < n → ∃ v, codeAt bytes i = some v := fun i hi => exists_codeAt (by omega)
  choose f hf using hcode
  refine ⟨List.ofFn fun i : Fin n => f i i.isLt, List.length_ofFn, fun i hi => ?_⟩
  rw [List.length_ofFn] at hi
  rw [hf i hi, List.getElem?_ofFn, dif_pos hi]

/-- The nibbles of the first codes of a stream are the stream's. -/
theorem StartsWithCodes.nibbleAt_eq {bytes : List Byte} {vs : List Code} (h : StartsWithCodes bytes vs)
    {j : Nat} (hj : j < 3 * vs.length) : nibbleAt bytes j = (nibblesOf vs)[j]? := by
  have hi : j / 3 < vs.length := by omega
  have hcode := h _ hi
  rw [List.getElem?_eq_getElem hi, codeAt_eq_some_iff] at hcode
  have hnibble := hcode (j % 3) (Nat.mod_lt _ (by decide))
  rw [Nat.div_add_mod] at hnibble
  rw [hnibble, getElem?_nibblesOf, List.getElem?_eq_getElem hi, Option.map_some]

/-- A code is determined by the nibbles up to its last one. -/
theorem codeAt_congr {bytes bytes' : List Byte} {i : Nat}
    (h : ∀ j, j < 3 * i + 3 → nibbleAt bytes j = nibbleAt bytes' j) : codeAt bytes i = codeAt bytes' i := by
  simp only [codeAt, h (3 * i) (by omega), h (3 * i + 1) (by omega), h (3 * i + 2) (by omega)]

theorem StartsWithCodes.congr {bytes bytes' : List Byte} {vs : List Code} (h : StartsWithCodes bytes vs)
    (heq : ∀ j, j < 3 * vs.length → nibbleAt bytes j = nibbleAt bytes' j) :
    StartsWithCodes bytes' vs := fun i hi =>
  (codeAt_congr fun j hj => heq j (by omega)).symm.trans (h i hi)

/-! ### UNPACK (R113 to R115) -/

/-- Where U.START is refused, its error ends UNPACK and no U.POP is issued. -/
theorem hostUnpack_refused {bytes : List Byte} {n : Nat} (s : State) {e : Err}
    (h : startCheck n bytes.length = some e) :
    hostUnpack bytes n s = some (.error e, s.respond (.error e)) := by
  rw [hostUnpack, unpackCommands, issueAll_cons_error (completes_uStart_refused bytes s h)]
  rfl

/-- Where U.START is accepted, UNPACK returns the codes the stream starts with. -/
theorem hostUnpack_accepted {bytes : List Byte} {vs : List Code} (s : State)
    (h : startCheck vs.length bytes.length = none) (hvs : StartsWithCodes bytes vs) :
    ∃ t, hostUnpack bytes vs.length s = some (.ok vs, t) := by
  have hlen : bytes.length = streamBytes vs.length := ((startCheck_eq_none_iff _ _).1 h).2
  unfold streamBytes at hlen
  obtain ⟨t, ht⟩ := issueAll_uPops vs
    (State.respond { s with u := s.u.start vs.length bytes.length bytes } (.ok 0)) rfl
    (by simp; omega) (fun j hj => by simpa using hvs.nibbleAt_eq hj)
  refine ⟨t, ?_⟩
  rw [hostUnpack, unpackCommands, issueAll_cons_ok (completes_uStart_accepted bytes s h) ht]
  simp [HostResult.andThen]

/-- All that UNPACK can do: end with the error of U.START, or return the `n` codes of the stream. -/
theorem hostUnpack_cases (bytes : List Byte) (n : Nat) (s : State) :
    (∃ e, startCheck n bytes.length = some e ∧
      hostUnpack bytes n s = some (.error e, s.respond (.error e))) ∨
    (∃ vs t, startCheck n bytes.length = none ∧ vs.length = n ∧ StartsWithCodes bytes vs ∧
      hostUnpack bytes n s = some (.ok vs, t)) := by
  cases hc : startCheck n bytes.length with
  | some e => exact .inl ⟨e, rfl, hostUnpack_refused s hc⟩
  | none =>
    have hlen : bytes.length = (3 * n + 1) / 2 := ((startCheck_eq_none_iff _ _).1 hc).2
    obtain ⟨vs, rfl, hvs⟩ := exists_startsWithCodes (bytes := bytes) (n := n) (by omega)
    obtain ⟨t, ht⟩ := hostUnpack_accepted s hc hvs
    exact .inr ⟨vs, t, rfl, rfl, hvs, ht⟩

/-- UNPACK returns `n` codes where the count is within NMAX and the length is the one it needs. -/
theorem exists_hostUnpack {bytes : List Byte} {n : Nat} (s : State) (hn : n ≤ Config.nmax)
    (hlen : bytes.length = streamBytes n) :
    ∃ vs t, hostUnpack bytes n s = some (.ok vs, t) ∧ vs.length = n := by
  obtain ⟨e, he, -⟩ | ⟨vs, t, -, hvs, -, ht⟩ := hostUnpack_cases bytes n s
  · cases ((startCheck_eq_none_iff _ _).2 ⟨hn, hlen⟩).symm.trans he
  · exact ⟨vs, t, ht, hvs⟩

/-- Settles O40: UNPACK is refused where U.START is, and succeeds elsewhere. -/
theorem unpackSucceedsOrFailsAtTheStart : Obligations.UnpackSucceedsOrFailsAtTheStart := by
  refine ⟨fun bytes n s => ⟨fun hn hlen => ?_, fun h => ?_, exists_hostUnpack s⟩, fun s => ?_⟩
  · exact hostUnpack_refused s (startCheck_lengthError hn hlen)
  · exact hostUnpack_refused s (startCheck_configError h.symm)
  · obtain ⟨vs, t, ht, hvs⟩ := exists_hostUnpack (bytes := []) (n := 0) s (Nat.zero_le _) rfl
    obtain rfl := List.eq_nil_of_length_eq_zero hvs
    exact ⟨t, ht⟩

/-- Settles O41: what UNPACK returns are the codes of the stream. -/
theorem unpackClosedForm : Obligations.UnpackClosedForm := by
  intro bytes n s t vs h
  obtain ⟨e, -, herr⟩ | ⟨vs', t', -, hlen, hvs, hok⟩ := hostUnpack_cases bytes n s
  · cases herr.symm.trans h
  · cases hok.symm.trans h
    refine ⟨hlen, fun i hi => ?_⟩
    have hi' : i < vs.length := by omega
    exact ⟨vs[i], List.getElem?_eq_getElem hi', (hvs i hi').trans (List.getElem?_eq_getElem hi')⟩

/-- Every nibble before the low half of the last byte is the same whatever that half is. -/
theorem nibbleAt_append_pad (front : List Byte) (hi lo lo' : Nibble) {j : Nat}
    (hj : j ≤ 2 * front.length) :
    nibbleAt (front ++ [(hi ++ lo : Byte)]) j = nibbleAt (front ++ [(hi ++ lo' : Byte)]) j := by
  simp only [nibbleAt, nibbleByte]
  by_cases hlt : j / 2 < front.length
  · rw [List.getElem?_append_left hlt, List.getElem?_append_left hlt]
  · obtain rfl : j = 2 * front.length := by omega
    have heven : 2 * front.length % 2 = 0 := Nat.mul_mod_right 2 _
    simp [nibbleHalf_even _ heven, ← byteOf_eq_append, byteOf_high]

/-- Settles O42: no nibble of a code is the pad, so U.START and the codes are the same. -/
theorem unpackIgnoresThePad : Obligations.UnpackIgnoresThePad := by
  intro front hi lo lo' n s t r hodd h hlen
  have hlen' : (front ++ [(hi ++ lo : Byte)]).length = (front ++ [(hi ++ lo' : Byte)]).length := by simp
  obtain ⟨e, hc, herr⟩ | ⟨vs, t', hc, rfl, hvs, hok⟩ :=
    hostUnpack_cases (front ++ [(hi ++ lo : Byte)]) n s
  · cases herr.symm.trans h
    exact ⟨_, hostUnpack_refused s (hlen' ▸ hc)⟩
  · cases hok.symm.trans h
    rw [List.length_append, List.length_singleton] at hlen
    exact hostUnpack_accepted s (hlen' ▸ hc)
      (hvs.congr fun j hj => nibbleAt_append_pad front hi lo lo' (by omega))

end Sys2Proof.Machine

/-! # Exceptions (60_exceptions.md)

Each command has one check (R135): it is refused with the error of that check, in the state as it was
(R136), and answers with an error in no other case. The causes of the errors (R131 to R133) are those of the
checks and the reserved words. -/

namespace Sys2Proof.Machine

/-! ### The check of a command (R135) -/

/-- The error of the first check of a command that fails; DEQUANT and P.INIT have none. -/
def commandCheck (i : Instr) (s : State) : Option Err :=
  match i with
  | .quant f => if quantize f = none then some .rangeError else none
  | .dequant _ => none
  | .pInit => none
  | .pPush _ => s.p.pushCheck
  | .pFlush => s.p.flushCheck
  | .uStart n len _ => startCheck n len
  | .uPop => s.u.popCheck

/-- A command whose check fails answers with the error alone (R136). -/
theorem completes_of_check_some {i : Instr} {s : State} {e : Err} (h : commandCheck i s = some e) :
    completes i s (.error e) (s.respond (.error e)) := by
  refine ⟨?_, rfl⟩
  cases i with
  | quant f =>
    obtain ⟨hq, rfl⟩ : quantize f = none ∧ Err.rangeError = e := by simpa [commandCheck] using h
    rw [exec_quant, quantResponse, hq]
  | dequant v => cases h
  | pInit => cases h
  | pPush v => exact exec_pPush_refused v h
  | pFlush => exact exec_pFlush_refused h
  | uStart n len bytes => exact exec_uStart_refused bytes s h
  | uPop => exact exec_uPop_refused h

/-- A command whose check passes succeeds, unless it is a U.POP that finds no code to read. -/
theorem completes_of_check_none {i : Instr} {s : State} (h : commandCheck i s = none) :
    (∃ x t, completes i s (.ok x) t) ∨ (i = .uPop ∧ s.u.pop = none) := by
  cases i with
  | quant f =>
    obtain ⟨q, hq⟩ : ∃ q, quantize f = some q := by
      simpa [commandCheck, Option.ne_none_iff_exists'] using h
    exact .inl ⟨_, completes_quant_code hq s⟩
  | dequant v => exact .inl ⟨_, _, exec_dequant v s, rfl⟩
  | pInit => exact .inl ⟨_, _, exec_pInit s, rfl⟩
  | pPush v => exact .inl ⟨_, _, exec_pPush_accepted v h, rfl⟩
  | pFlush => exact .inl ⟨_, _, exec_pFlush_accepted h, rfl⟩
  | uStart n len bytes => exact .inl ⟨_, _, completes_uStart_accepted bytes s h⟩
  | uPop =>
    cases hp : s.u.pop with
    | none => exact .inr ⟨rfl, rfl⟩
    | some r => exact .inl ⟨_, _, exec_uPop_accepted h hp, rfl⟩

/-- A command completes in one way only. -/
theorem completes_unique {i : Instr} {s t t' : State} {r r' : Response} (h : completes i s r t)
    (h' : completes i s r' t') : r = r' ∧ t = t' :=
  Prod.mk.inj (Option.some.inj ((issue_eq_some_iff.2 h).symm.trans (issue_eq_some_iff.2 h')))

theorem error_iff_check {i : Instr} {s t : State} {r : Response} (h : completes i s r t) (e : Err) :
    r = .error e ↔ commandCheck i s = some e := by
  cases hc : commandCheck i s with
  | some e' =>
    obtain ⟨rfl, -⟩ := completes_unique h (completes_of_check_some hc)
    rw [Response.error.injEq, Option.some.injEq]
  | none =>
    obtain ⟨x, t', hok⟩ | ⟨rfl, hp⟩ := completes_of_check_none hc
    · obtain ⟨rfl, -⟩ := completes_unique h hok
      simp
    · cases (exec_uPop_faults hc hp).symm.trans h.1

/-- A command that answers with an error adds that response and changes nothing else (R136). -/
theorem completes_error_state {i : Instr} {s t : State} {e : Err} (h : completes i s (.error e) t) :
    t = s.respond (.error e) :=
  (completes_unique h (completes_of_check_some ((error_iff_check h e).1 rfl))).2

/-- Under the invariant of unit U every command answers: U.POP finds its code in the stream. -/
theorem exec_answers {s : State} (hi : s.u.Inv) (i : Instr) : ∃ t, exec i s = .next t := by
  cases hc : commandCheck i s with
  | some e => exact ⟨_, (completes_of_check_some hc).1⟩
  | none =>
    obtain ⟨x, t, hok⟩ | ⟨rfl, -⟩ := completes_of_check_none hc
    · exact ⟨t, hok.1⟩
    · obtain ⟨_, _, _, _, -, -, -, -, hx⟩ :=
        (popReturnsTheNextCode s).2 hi ((popCheck_eq_none_iff s.u).1 hc)
      exact ⟨_, hx⟩

/-! ### The causes of each error (R131 to R133) -/

theorem check_rangeError_iff (i : Instr) (s : State) :
    commandCheck i s = some .rangeError ↔ ∃ f, i = .quant f ∧ isNaN f := by
  cases i <;> simp [commandCheck, quantize_eq_none_iff, pushCheck_eq_some_iff, flushCheck_eq_some_iff,
    startCheck_ne_rangeError, popCheck_eq_some_iff]

/-- LengthError is the second check of U.START; the first one passes for every count that fits its
field. -/
theorem check_lengthError_iff {i : Instr} (hwf : i.WellFormed) (s : State) :
    commandCheck i s = some .lengthError ↔
      ∃ n len bytes, i = .uStart n len bytes ∧ len < streamBytes n := by
  cases i with
  | uStart n len bytes =>
    simp only [Instr.WellFormed, Instr.wf, Bool.and_eq_true, decide_eq_true_eq] at hwf
    obtain ⟨⟨hlt, -⟩, -⟩ := hwf
    have hn : n ≤ Config.nmax := Nat.le_sub_one_of_lt hlt
    simp [commandCheck, startCheck_eq_some_iff, hn]
  | _ => simp [commandCheck, pushCheck_eq_some_iff, flushCheck_eq_some_iff, popCheck_eq_some_iff]

theorem check_configError_iff (i : Instr) (s : State) :
    commandCheck i s = some .configError ↔
      (∃ v, i = .pPush v ∧ (s.p.isOpen = false ∨ s.p.cnt = Config.nmax)) ∨
      (i = .pFlush ∧ s.p.isOpen = false) ∨
      (∃ n len bytes, i = .uStart n len bytes ∧ (Config.nmax < n ∨ streamBytes n < len)) ∨
      (i = .uPop ∧ s.u.rem = 0) := by
  cases i <;> simp [commandCheck, pushCheck_eq_some_iff, flushCheck_eq_some_iff, startCheck_eq_some_iff,
    popCheck_eq_some_iff]

/-! ### A step that answers a presented command -/

theorem mem_reservedOps_of_decode {c : Command} {op : BitVec 4}
    (h : decode c = .error (.reservedOp op)) : c.op ∈ reservedOps := by
  by_contra hop
  by_cases hb : c.op = 0x8 → c.bytes.length = c.lenField
  · obtain ⟨i, hi⟩ := reservedOpsAnswerConfigError.2 c hop hb
    cases h.symm.trans hi
  · obtain ⟨h8, hlen⟩ := Classical.not_imp.1 hb
    simp [decode, h8, decodeStart, hlen] at h

/-- A presented command is answered by the instruction its word decodes to, or its `op` is reserved and
the answer is ConfigError. -/
theorem answers_cases {c : Command} {s t : State} {r : Response} (h : answers c s r t) :
    ∃ rest, (∃ i, decode c = .ok i ∧ completes i { s with inputs := rest } r t) ∨
      (c.op ∈ reservedOps ∧ r = .error .configError ∧
        t = State.respond { s with inputs := rest } (.error .configError)) := by
  obtain ⟨⟨rest, hin⟩, hstep, hr⟩ := h
  refine ⟨rest, ?_⟩
  obtain ⟨h0, -⟩ | ⟨rest', h0, -⟩ | ⟨c', rest', h0, hc⟩ := step_cases hstep
  · cases hin.symm.trans h0
  · cases hin.symm.trans h0
  · cases hin.symm.trans h0
    obtain ⟨i, hd, hx⟩ | ⟨op, hd, rfl⟩ := hc
    · exact .inl ⟨i, hd, hx, hr⟩
    · exact .inr ⟨mem_reservedOps_of_decode hd, by simpa using hr.symm, rfl⟩

/-! ### The obligations -/

/-- Settles O12: a word that can be presented is reserved, and answered, or decodes to an instruction,
which answers. -/
theorem stepNeverStops : Obligations.StepNeverStops := by
  intro s hi hpres
  match hin : s.inputs with
  | [] => exact ⟨s, by simp only [step, serveNext, hin]⟩
  | .reset :: rest =>
    exact ⟨State.applyReset { s with inputs := rest }, by simp only [step, serveNext, hin, serve]⟩
  | .command c :: rest =>
    by_cases hop : c.op ∈ reservedOps
    · exact ⟨_, reservedOpsAnswerConfigError.1 s c rest hin hop⟩
    · have hb : c.op = 0x8 → c.bytes.length = c.lenField := by
        simpa [HostEvent.presentable, imp_iff_not_or] using hpres (.command c) (by rw [hin]; rfl)
      obtain ⟨i, hd⟩ := reservedOpsAnswerConfigError.2 c hop hb
      rw [stepRunsTheDecodedCommand s c rest i hin hd]
      exact exec_answers (s := { s with inputs := rest }) hi.u i

/-- Settles O48: the causes of the instruction's check, or the reserved `op`. -/
theorem errorsHaveTheirCauses : Obligations.ErrorsHaveTheirCauses := by
  intro c s t r h
  obtain ⟨rest, ⟨i, hd, hi⟩ | ⟨hop, rfl, -⟩⟩ := answers_cases h
  · have hop : c.op ∉ reservedOps := fun hop => nomatch hd.symm.trans (decode_reserved hop)
    simp only [hd, Except.ok.injEq, hop, false_or, error_iff_check hi]
    exact ⟨check_rangeError_iff i _, check_lengthError_iff (wellFormed_of_decode hd) _,
      check_configError_iff i _⟩
  · simp [decode_reserved hop, hop]

/-- Settles O49: only the response is added, to a refused instruction as to a reserved word. -/
theorem errorsLeaveTheStateAsItWas : Obligations.ErrorsLeaveTheStateAsItWas := by
  intro c s t e h
  obtain ⟨rest, ⟨i, -, hi⟩ | ⟨-, -, rfl⟩⟩ := answers_cases h
  · obtain rfl := completes_error_state hi
    exact ⟨rfl, rfl⟩
  · exact ⟨rfl, rfl⟩

/-- Settles O50: after an error both units are as before, and nothing else is read by a command. -/
theorem errorsAreNotSticky : Obligations.ErrorsAreNotSticky := by
  intro i s t e h
  obtain rfl := completes_error_state h
  have hagain (j : Instr) (r : Response) (s' : State) (hj : completes j s r s') :
      ∃ t', completes j (s.respond (.error e)) r t' ∧ t'.p = s'.p ∧ t'.u = s'.u := by
    obtain ⟨t', ht, hp, hu⟩ :=
      completes_of_agree (s' := s.respond (.error e)) hj (fun _ => rfl) (fun _ => rfl)
    exact ⟨t', ht, hp rfl, hu rfl⟩
  obtain ⟨t', ht, -⟩ := hagain i _ _ h
  exact ⟨⟨t', ht⟩, hagain⟩

end Sys2Proof.Machine

/-! # Reset and hazards (70_reset_and_hazards.md)

The two steps that run no command: the block waits, or takes the reset event (R150). -/

namespace Sys2Proof.Machine

theorem step_of_inputs_nil {s : State} (h : s.inputs = []) : step s = .next s := by
  simp only [step, serveNext, h]

theorem step_of_reset_presented {s : State} {rest : List HostEvent} (h : s.inputs = .reset :: rest) :
    step s = .next (State.applyReset { s with inputs := rest }) := by
  simp only [step, serveNext, h, serve]

/-- Settles O13: the step of the reset event is `applyReset`, whose units are the values of R25, and a
step with nothing presented waits. -/
theorem resetEvent : Obligations.ResetEvent :=
  ⟨fun _ _ hin => step_of_reset_presented hin, fun _ hin => step_of_inputs_nil hin⟩

end Sys2Proof.Machine

/-! # Command words and their instructions (30_encoding.md)

Both directions of the command interface: what is encoded is decoded again, and what is decoded has the
word's `op` and can be presented. -/

namespace Sys2Proof.Machine

/-! ### Decode after encode (R53 to R55) -/

theorem opcode_encode (i : Instr) : (encode i).op = i.opcode := op_commandWord ..

theorem codeField_commandWord (op : BitVec 4) (v : Code) (bytes : List Byte) :
    (Command.mk (commandWord op (v.setWidth 64)) bytes).codeField = v := by
  apply BitVec.eq_of_toNat_eq
  have := v.isLt
  rw [codeField_toNat, commandWord_toNat, BitVec.toNat_setWidth]
  omega

/-- The payload of format S is its two fields, `len` above `n`. -/
theorem uStart_word_toNat {n len : Nat} {bytes : List Byte} (hn : n < 2 ^ 32) (hlen : len < 2 ^ 32) :
    (encode (.uStart n len bytes)).word.toNat = 0x8 * 2 ^ 64 + (len * 2 ^ 32 + n) := by
  have hpayload : (Instr.payload (.uStart n len bytes)).toNat = len * 2 ^ 32 + n := by
    simp only [Instr.payload, Config.cw, BitVec.toNat_ofNat]
    omega
  rw [encode, commandWord_toNat, hpayload]
  rfl

theorem countField_encode_uStart {n len : Nat} {bytes : List Byte} (hn : n < 2 ^ 32)
    (hlen : len < 2 ^ 32) : (encode (.uStart n len bytes)).countField = n := by
  rw [countField_eq, uStart_word_toNat hn hlen]
  omega

theorem lenField_encode_uStart {n len : Nat} {bytes : List Byte} (hn : n < 2 ^ 32)
    (hlen : len < 2 ^ 32) : (encode (.uStart n len bytes)).lenField = len := by
  rw [lenField_eq, uStart_word_toNat hn hlen]
  omega

theorem uStart_wellFormed_iff (n len : Nat) (bytes : List Byte) :
    (Instr.uStart n len bytes).WellFormed ↔ n < 2 ^ 32 ∧ len < 2 ^ 32 ∧ bytes.length = len := by
  simp only [Instr.WellFormed, Instr.wf, Bool.and_eq_true, decide_eq_true_eq, and_assoc]
  rfl

/-- Settles O1: the encoder puts each opcode and each operand where the decoder takes it from. -/
theorem decodeOfEncode : Obligations.DecodeOfEncode := by
  intro i hwf
  have hop : (encode i).op.toNat = i.opcode.toNat := congrArg BitVec.toNat (opcode_encode i)
  cases i with
  | quant f =>
    rw [decode_quant hop, encode, payload_commandWord]
    rfl
  | dequant v => rw [decode_dequant hop, encode, Instr.payload, codeField_commandWord]
  | pInit => exact decode_pInit hop
  | pPush v => rw [decode_pPush hop, encode, Instr.payload, codeField_commandWord]
  | pFlush => exact decode_pFlush hop
  | uStart n len bytes =>
    obtain ⟨hn, hlen, hbytes⟩ := (uStart_wellFormed_iff ..).1 hwf
    rw [decode_uStart hop (hbytes.trans (lenField_encode_uStart hn hlen).symm),
      countField_encode_uStart hn hlen, lenField_encode_uStart hn hlen]
    rfl
  | uPop => exact decode_uPop hop

/-! ### What the decoder answers (R54) -/

theorem opcode_of_decode {c : Command} {i : Instr} (h : decode c = .ok i) : i.opcode = c.op := by
  obtain ⟨hop, rfl⟩ | ⟨hop, rfl⟩ | ⟨hop, rfl⟩ | ⟨hop, rfl⟩ | ⟨hop, rfl⟩ | ⟨hop, -, rfl⟩ | ⟨hop, rfl⟩ :=
    decode_ok_cases h
  all_goals exact hop.symm

/-- Settles O4: an instruction that is decoded takes its operands from fields that bound them. -/
theorem decodedInstructionsAreWellFormed : Obligations.DecodedInstructionsAreWellFormed :=
  fun _ _ h => ⟨wellFormed_of_decode h, opcode_of_decode h⟩

/-! ### The words of the specification (95_test_vectors.md) and of the opcode table -/

/-- Settles O5: the decoder evaluates the eight words. -/
theorem wordsOfThePrograms : Obligations.WordsOfThePrograms := by
  unfold Obligations.WordsOfThePrograms
  decide

theorem decode_tableCommand {nbits w : Nat} {i : Instr} (h : decodeTableWord nbits w = some i) :
    decode (tableCommand nbits w) = .ok i := by
  unfold decodeTableWord at h
  split at h
  · next hd => rw [hd, Option.some.inj h]
  · cases h

/-- Settles O8: the table's word is the command presented first, so the step serves it in the state
before its presentation. -/
theorem tableWordRunsNext : Obligations.TableWordRunsNext := fun s _ _ i h =>
  stepRunsTheDecodedCommand _ _ s.inputs i rfl (decode_tableCommand h)

end Sys2Proof.Machine

/-! # Script lines (30_encoding.md R58)

A line is read in three passes: `commandPart` drops the comment, `tokens` cuts the words, `readTokens`
reads them. What is written holds no comment, its words are of characters that no pass treats apart, and
every number is read back from its digits. -/

namespace Sys2Proof.Machine

/-! ### Characters -/

/-- A character that neither ends a word nor starts a comment or a response. -/
def isWordChar (c : Char) : Bool := c ∉ [' ', '\t', '[', ']', ',', ';', '-']

theorem digitChar_spec : ∀ d, d < 16 →
    isWordChar (digitChar d) = true ∧ digitValue (digitChar d) = some d := by
  decide

theorem isWordChar_digitChar {d : Nat} (h : d < 16) : isWordChar (digitChar d) = true :=
  (digitChar_spec d h).1

theorem digitValue_digitChar {d : Nat} (h : d < 16) : digitValue (digitChar d) = some d :=
  (digitChar_spec d h).2

/-! ### Numbers -/

section
variable {base : Nat} (hpos : 0 < base) (hle : base ≤ 16)

/-- One digit more is the next higher one, in front. -/
theorem fixedDigits_succ (base k n : Nat) :
    fixedDigits base (k + 1) n = digitChar (n / base ^ k % base) :: fixedDigits base k n := by
  simp [fixedDigits, List.range_succ]

@[simp] theorem length_fixedDigits (base k n : Nat) : (fixedDigits base k n).length = k := by
  simp [fixedDigits]

include hpos hle

theorem isWordChar_of_mem_fixedDigits {k n : Nat} {c : Char} (h : c ∈ fixedDigits base k n) :
    isWordChar c = true := by
  simp only [fixedDigits, List.mem_reverse, List.mem_map] at h
  obtain ⟨i, -, rfl⟩ := h
  exact isWordChar_digitChar ((Nat.mod_lt _ hpos).trans_le hle)

theorem digitsFrom_fixedDigits (acc k n : Nat) :
    digitsFrom base acc (fixedDigits base k n) = some (acc * base ^ k + n % base ^ k) := by
  induction k generalizing acc with
  | zero => simp [fixedDigits, digitsFrom, Nat.mod_one]
  | succ k ih =>
    have hd : n / base ^ k % base < base := Nat.mod_lt _ hpos
    rw [fixedDigits_succ, digitsFrom, digitValue_digitChar (hd.trans_le hle)]
    simp only [if_pos hd]
    rw [ih, Nat.mod_pow_succ]
    ring_nf

theorem fixedNumber_fixedDigits {k n : Nat} (h : n < base ^ (k + 1)) :
    fixedNumber base (k + 1) (fixedDigits base (k + 1) n) = some n := by
  have hdigits := digitsFrom_fixedDigits hpos hle 0 (k + 1) n
  rw [Nat.zero_mul, Nat.zero_add, Nat.mod_eq_of_lt h] at hdigits
  rw [fixedNumber, if_pos (length_fixedDigits ..), ← hdigits, fixedDigits_succ, number]

end

theorem fixedNumber_hexDigits {w : Nat} (k : Nat) (v : BitVec w) (h : 2 ^ w = 16 ^ (k + 1)) :
    fixedNumber 16 (k + 1) (fixedDigits 16 (k + 1) v.toNat) = some v.toNat :=
  fixedNumber_fixedDigits (by decide) (by decide) (h ▸ v.isLt)

theorem readCode_hexLiteral (v : Code) : readCode (hexLiteral 3 v.toNat) = some v := by
  simp [hexLiteral, readCode, fixedNumber_hexDigits 2 v (by decide)]

theorem readSample_hexLiteral (f : Sample) : readSample (hexLiteral 16 f.toNat) = some f := by
  simp [hexLiteral, readSample, fixedNumber_hexDigits 15 f (by decide)]

theorem digitsFrom_dropWhile_zero (cs : List Char) :
    digitsFrom 10 0 (cs.dropWhile (· = '0')) = digitsFrom 10 0 cs := by
  induction cs with
  | nil => rfl
  | cons c cs ih =>
    by_cases hc : c = '0'
    · subst hc
      exact ih
    · rw [List.dropWhile_cons_of_neg (by simpa using hc)]

/-- A decimal is its ten digits from the first that is not 0 on, or one 0. -/
theorem decimalText_eq (n : Nat) :
    decimalText n = (if (fixedDigits 10 10 n).dropWhile (· = '0') = [] then ['0']
      else (fixedDigits 10 10 n).dropWhile (· = '0')) := by
  unfold decimalText
  split
  · next h => rw [if_pos h]
  · next h => rw [if_neg h]

theorem number_of_ne_nil (base : Nat) {cs : List Char} (h : cs ≠ []) :
    number base cs = digitsFrom base 0 cs := by
  cases cs with
  | nil => exact absurd rfl h
  | cons c cs => rfl

theorem number_decimalText {n : Nat} (h : n < 10 ^ 10) : number 10 (decimalText n) = some n := by
  have hdigits := digitsFrom_dropWhile_zero (fixedDigits 10 10 n)
  rw [digitsFrom_fixedDigits (by decide) (by decide), Nat.zero_mul, Nat.zero_add,
    Nat.mod_eq_of_lt h] at hdigits
  rw [decimalText_eq]
  split
  · next hnil =>
    rw [hnil] at hdigits
    exact hdigits
  · next hne => rw [number_of_ne_nil _ hne, hdigits]

theorem decimalText_ne_nil (n : Nat) : decimalText n ≠ [] := by
  rw [decimalText_eq]
  split
  · nofun
  · assumption

/-! ### Words (`tokens`) -/

/-- Some characters, none of which ends a word or starts a comment. -/
def IsWord (w : List Char) : Prop := w ≠ [] ∧ ∀ c ∈ w, isWordChar c = true

theorem isWord_fixedDigits {base : Nat} (hpos : 0 < base) (hle : base ≤ 16) (k n : Nat) :
    IsWord (fixedDigits base (k + 1) n) :=
  ⟨by simp [fixedDigits_succ], fun _ h => isWordChar_of_mem_fixedDigits hpos hle h⟩

theorem isWord_hexLiteral (k n : Nat) : IsWord (hexLiteral k n) := by
  refine ⟨nofun, fun c h => ?_⟩
  obtain h | h := List.mem_append.1 h
  · obtain rfl | rfl : c = '0' ∨ c = 'x' := by simpa using h
    · decide
    · decide
  · exact isWordChar_of_mem_fixedDigits (by decide) (by decide) h

theorem isWord_decimalText (n : Nat) : IsWord (decimalText n) := by
  refine ⟨decimalText_ne_nil n, fun c h => ?_⟩
  rw [decimalText_eq] at h
  split at h
  · obtain rfl := List.mem_singleton.1 h
    decide
  · exact isWordChar_of_mem_fixedDigits (by decide) (by decide) ((List.dropWhile_sublist _).mem h)

theorem tokens_append {w' : List Char} (h : ∀ c ∈ w', isWordChar c = true) (w cs : List Char) :
    tokens w (w' ++ cs) = tokens (w ++ w') cs := by
  induction w' generalizing w with
  | nil => rw [List.nil_append, List.append_nil]
  | cons c w' ih =>
    obtain ⟨hblank, htab, hopen, hclose, hcomma, -, -⟩ : c ≠ ' ' ∧ c ≠ '\t' ∧ c ≠ '[' ∧
        c ≠ ']' ∧ c ≠ ',' ∧ c ≠ ';' ∧ c ≠ '-' := by
      simpa [isWordChar] using h c List.mem_cons_self
    simp only [List.cons_append, tokens, hblank, htab, hopen, hclose, hcomma, or_false, if_false]
    rw [ih fun c hc => h c (List.mem_cons_of_mem _ hc), List.append_assoc, List.singleton_append]

theorem tokens_word {w : List Char} (hw : IsWord w) : tokens [] w = [w] := by
  have h := tokens_append hw.2 [] []
  rw [List.append_nil, List.nil_append] at h
  rw [h, tokens, endWord, if_neg hw.1]

theorem tokens_word_space {w : List Char} (hw : IsWord w) (cs : List Char) :
    tokens [] (w ++ ' ' :: cs) = w :: tokens [] cs := by
  rw [tokens_append hw.2, List.nil_append, tokens, if_pos (.inl rfl), endWord, if_neg hw.1]

/-- The closing bracket ends a word and is one. -/
theorem tokens_word_bracket {w : List Char} (hw : IsWord w) (cs : List Char) :
    tokens [] (w ++ ']' :: cs) = w :: [']'] :: tokens [] cs := by
  rw [tokens_append hw.2, List.nil_append, tokens, if_neg (by decide), if_pos (by decide), endWord,
    if_neg hw.1]

/-- The two digits of a byte. -/
def byteText (b : Byte) : List Char := fixedDigits 16 2 b.toNat

theorem isWord_byteText (b : Byte) : IsWord (byteText b) :=
  isWord_fixedDigits (by decide) (by decide) 1 _

theorem bytesText_singleton (b : Byte) : bytesText [b] = byteText b := rfl

theorem bytesText_cons_cons (b b' : Byte) (bs : List Byte) :
    bytesText (b :: b' :: bs) = byteText b ++ ' ' :: bytesText (b' :: bs) :=
  List.append_assoc _ [' '] _

/-- The words of the bytes of a U.START line, up to the closing bracket. -/
theorem tokens_bytesText (bs : List Byte) (cs : List Char) :
    tokens [] (bytesText bs ++ ']' :: cs) = bs.map byteText ++ [']'] :: tokens [] cs := by
  induction bs using bytesText.induct with
  | case1 => rfl
  | case2 b => exact tokens_word_bracket (isWord_byteText b) cs
  | case3 b bs hne ih =>
    obtain ⟨b', bs, rfl⟩ := List.exists_cons_of_ne_nil hne
    rw [bytesText_cons_cons, List.append_assoc, List.cons_append,
      tokens_word_space (isWord_byteText b), ih]
    rfl

/-! ### Comments (`commandPart`) -/

/-- A character that starts neither a comment nor an expected response. -/
def isCommandChar (c : Char) : Bool := c ≠ ';' && c ≠ '-'

theorem commandPart_eq_self {cs : List Char} (h : cs.all isCommandChar = true) :
    commandPart cs = cs := by
  induction cs with
  | nil => rfl
  | cons c cs ih =>
    rw [List.all_cons, Bool.and_eq_true] at h
    obtain ⟨hc, hcs⟩ := h
    obtain ⟨hsemicolon, hminus⟩ : c ≠ ';' ∧ c ≠ '-' := by simpa [isCommandChar] using hc
    rw [commandPart, ih hcs]
    · exact hsemicolon
    · exact fun _ h _ => hminus h

theorem IsWord.all_isCommandChar {w : List Char} (hw : IsWord w) : w.all isCommandChar = true := by
  refine List.all_eq_true.2 fun c hc => ?_
  have hword := hw.2 c hc
  simp only [isWordChar, List.mem_cons, not_or, decide_eq_true_eq] at hword
  simp [isCommandChar, hword]

theorem bytesText_all_isCommandChar (bs : List Byte) : (bytesText bs).all isCommandChar = true := by
  induction bs using bytesText.induct with
  | case1 => rfl
  | case2 b => exact (isWord_byteText b).all_isCommandChar
  | case3 b bs hne ih =>
    obtain ⟨b', bs, rfl⟩ := List.exists_cons_of_ne_nil hne
    rw [bytesText_cons_cons, List.all_append, (isWord_byteText b).all_isCommandChar]
    exact ih

/-! ### Lines -/

/-- A line of one word. -/
theorem readLine_word {w : List Char} (hw : IsWord w) : readLine w = readTokens [w] := by
  rw [readLine, commandPart_eq_self hw.all_isCommandChar, tokens_word hw]

/-- A line of a mnemonic and one operand. -/
theorem readLine_operand {w x : List Char} (hw : IsWord w) (hx : IsWord x) :
    readLine (w ++ ' ' :: x) = readTokens [w, x] := by
  have hall : (w ++ ' ' :: x).all isCommandChar = true := by
    rw [List.all_append, List.all_cons, hw.all_isCommandChar, hx.all_isCommandChar]
    decide
  rw [readLine, commandPart_eq_self hall, tokens_word_space hw, tokens_word hx]

/-- A line of a mnemonic, a bracketed list of bytes and a count. -/
theorem readLine_bytes {w x : List Char} (hw : IsWord w) (bs : List Byte) (hx : IsWord x) :
    readLine (w ++ ' ' :: '[' :: (bytesText bs ++ ']' :: ',' :: ' ' :: x)) =
      readTokens (w :: ['['] :: (bs.map byteText ++ [[']'], [','], x])) := by
  have hall : (w ++ ' ' :: '[' :: (bytesText bs ++ ']' :: ',' :: ' ' :: x)).all isCommandChar = true := by
    simp only [List.all_append, List.all_cons, hw.all_isCommandChar, hx.all_isCommandChar,
      bytesText_all_isCommandChar]
    decide
  have hopen : ∀ cs, tokens [] ('[' :: cs) = ['['] :: tokens [] cs := fun _ => rfl
  have hcomma : tokens [] (',' :: ' ' :: x) = [','] :: tokens [] x := rfl
  rw [readLine, commandPart_eq_self hall, tokens_word_space hw, hopen, tokens_bytesText, hcomma,
    tokens_word hx]

theorem readStart_bytes (acc bs : List Byte) {x : List Char} {n : Nat} (hx : number 10 x = some n) :
    readStart acc (bs.map byteText ++ [[']'], [','], x]) =
      some (.uStart n (acc ++ bs).length (acc ++ bs)) := by
  induction bs generalizing acc with
  | nil => simp [readStart, hx]
  | cons b bs ih =>
    have hne : byteText b ≠ [']'] := fun h => by simpa [byteText] using congrArg List.length h
    have hb : fixedNumber 16 2 (byteText b) = some b.toNat := fixedNumber_hexDigits 1 b (by decide)
    simp only [List.map_cons, List.cons_append, readStart, if_neg hne, hb]
    rw [ih, BitVec.ofNat_toNat, BitVec.setWidth_eq, List.append_assoc, List.singleton_append]

/-- The mnemonic of a command (R58). -/
def mnemonic : Instr → List Char
  | .quant _ => ['Q', 'U', 'A', 'N', 'T']
  | .dequant _ => ['D', 'E', 'Q', 'U', 'A', 'N', 'T']
  | .pInit => ['P', '.', 'I', 'N', 'I', 'T']
  | .pPush _ => ['P', '.', 'P', 'U', 'S', 'H']
  | .pFlush => ['P', '.', 'F', 'L', 'U', 'S', 'H']
  | .uStart _ _ _ => ['U', '.', 'S', 'T', 'A', 'R', 'T']
  | .uPop => ['U', '.', 'P', 'O', 'P']

theorem isWord_mnemonic (i : Instr) : IsWord (mnemonic i) := by
  cases i <;> exact ⟨nofun, by simp [mnemonic, isWordChar]⟩

theorem lineOf_uStart (n len : Nat) (bytes : List Byte) :
    lineOf (.uStart n len bytes) = mnemonic (.uStart n len bytes) ++
      ' ' :: '[' :: (bytesText bytes ++ ']' :: ',' :: ' ' :: decimalText n) := by
  simp [lineOf, mnemonic]

/-- Settles O6: by the form of the line, its words are the mnemonic and the operands, and each operand
is read back from its digits. -/
theorem scriptLinesReadBack : Obligations.ScriptLinesReadBack := by
  intro i hwf
  have hm := isWord_mnemonic i
  cases i with
  | quant f =>
    refine (readLine_operand hm (isWord_hexLiteral 16 f.toNat)).trans ?_
    simp [mnemonic, readTokens, readSample_hexLiteral]
  | dequant v =>
    refine (readLine_operand hm (isWord_hexLiteral 3 v.toNat)).trans ?_
    simp [mnemonic, readTokens, readCode_hexLiteral]
  | pInit => exact readLine_word hm
  | pPush v =>
    refine (readLine_operand hm (isWord_hexLiteral 3 v.toNat)).trans ?_
    simp [mnemonic, readTokens, readCode_hexLiteral]
  | pFlush => exact readLine_word hm
  | uStart n len bytes =>
    obtain ⟨hn, -, rfl⟩ := (uStart_wellFormed_iff ..).1 hwf
    have hread := readStart_bytes [] bytes (number_decimalText (hn.trans (by decide)))
    rw [lineOf_uStart, readLine_bytes hm bytes (isWord_decimalText n)]
    simpa [mnemonic, readTokens] using hread
  | uPop => exact readLine_word hm

end Sys2Proof.Machine

/-! # The words of the samples (30_encoding.md section 1)

Writing inverts reading on the words too: sign, exponent field and fraction make up the word. Then the
words at the thresholds of QUANT. -/

namespace Sys2Proof.Machine

theorem packWord_fields (w : Sample) :
    F64.packWord w.msb (w.extractLsb' 52 11).toNat (w.extractLsb' 0 52).toNat = w := by
  apply BitVec.eq_of_toNat_eq
  rw [packWord_toNat _ (BitVec.isLt _) (BitVec.isLt _), BitVec.extractLsb'_toNat,
    BitVec.extractLsb'_toNat, Nat.shiftRight_eq_div_pow, Nat.shiftRight_zero, BitVec.msb_eq_decide]
  have := w.isLt
  rcases lt_or_ge w.toNat (2 ^ 63) with h | h
  · rw [decide_eq_false (by simpa using h), Bool.toNat_false]
    omega
  · rw [decide_eq_true (by simpa using h), Bool.toNat_true]
    omega

/-- A magnitude with the hidden bit has its exponent and its fraction in its word. -/
theorem toWord_normal (s : Bool) {t k : Nat} (ht : t < 2 ^ 52) :
    F64.toWord (.fin ⟨s, (2 ^ 52 + t) * 2 ^ k⟩) = F64.packWord s (k + 1) t := by
  have hk := Nat.two_pow_pos k
  have hlog : ((2 ^ 52 + t) * 2 ^ k).log2 = 52 + k := by
    rw [Nat.log2_eq_iff (Nat.mul_pos (by omega) hk).ne', Nat.add_right_comm, Nat.pow_add, Nat.pow_add]
    exact ⟨Nat.mul_le_mul_right _ (by omega), Nat.mul_lt_mul_of_pos_right (by omega) hk⟩
  rw [toWord_of_le s ((Nat.le_add_right ..).trans (Nat.le_mul_of_pos_right _ hk)), hlog,
    Nat.add_sub_cancel_left, Nat.mul_div_cancel _ hk, Nat.add_sub_cancel_left]

/-- Settles O15: by the exponent field, the fields that are written are those that were read. -/
theorem sampleWordsReadBack : Obligations.SampleWordsReadBack := by
  intro w x h
  have hw := packWord_fields w
  have ht := (w.extractLsb' 0 52).isLt
  by_cases h1 : (w.extractLsb' 52 11).toNat = 2047
  · rw [ofWord_of_exp_max h1] at h
    split at h
    · next h0 =>
      cases h
      rwa [h1, h0] at hw
    · cases h
  · by_cases h0 : (w.extractLsb' 52 11).toNat = 0
    · rw [ofWord_of_exp_zero h0] at h
      cases h
      rw [h0] at hw
      rwa [toWord_of_lt _ ht]
    · rw [ofWord_of_exp_normal h0 h1] at h
      cases h
      rwa [toWord_normal _ ht, Nat.sub_add_cancel (Nat.pos_of_ne_zero h0)]

/-! ### The thresholds of QUANT (95_test_vectors.md section 2.2) -/

/-- Settles O22: the model evaluates the eighteen operands. -/
theorem quantThresholds : Obligations.QuantThresholds := by
  unfold Obligations.QuantThresholds
  decide

end Sys2Proof.Machine

/-! # Packed streams (41_packer.md, 42_unpacker.md, 70_reset_and_hazards.md section 3)

A stream is determined by its nibbles, so pack and UNPACK are inverse up to the pad, and streams without
a pad can be joined. -/

namespace Sys2Proof.Machine

/-! ### Joining streams -/

theorem nibblesOf_append (vs ws : List Code) : nibblesOf (vs ++ ws) = nibblesOf vs ++ nibblesOf ws :=
  List.flatMap_append

/-- An even number of nibbles fills whole bytes, so what follows starts a byte of its own. -/
theorem bytesOfNibbles_append (ns ms : List Nibble) (h : ns.length % 2 = 0) :
    bytesOfNibbles (ns ++ ms) = bytesOfNibbles ns ++ bytesOfNibbles ms := by
  induction ns using bytesOfNibbles.induct with
  | case1 => rfl
  | case2 x => cases h
  | case3 x y ns ih =>
    rw [List.length_cons, List.length_cons, Nat.add_assoc, Nat.add_mod_right] at h
    rw [List.cons_append, List.cons_append, bytesOfNibbles, ih h, bytesOfNibbles, List.cons_append]

/-- Settles O36: an even count has an even number of nibbles; the example is evaluated. -/
theorem packAppend : Obligations.PackAppend := by
  refine ⟨fun vs ws h => ?_, by decide, by decide⟩
  simp only [pack_eq_bytesOfNibbles, nibblesOf_append]
  exact bytesOfNibbles_append _ _ (by rw [length_nibblesOf]; omega)

/-! ### The round trips (R116) -/

/-- Settles O43: UNPACK of a packed sequence, with unit P left aside. -/
theorem unpackOfPack : Obligations.UnpackOfPack := fun vs s hn =>
  let ⟨t, ht, _⟩ := hostUnpack_pack vs s hn
  ⟨t, ht⟩

/-- Streams of one length with the same nibbles are the same. -/
theorem ext_nibbleAt {s s' : List Byte} (hlen : s.length = s'.length)
    (h : ∀ j, j < 2 * s.length → nibbleAt s j = nibbleAt s' j) : s = s' := by
  refine List.ext_getElem hlen fun k hk hk' => ?_
  have half {j : Nat} (hj : j / 2 = k) : nibbleHalf s[k] j = nibbleHalf s'[k] j := by
    subst hj
    rw [← Option.some_inj, ← nibbleAt_of_lt hk, ← nibbleAt_of_lt hk']
    exact h j (by omega)
  have hhigh := half (j := 2 * k) (by omega)
  have hlow := half (j := 2 * k + 1) (by omega)
  rw [nibbleHalf_even _ (by omega), nibbleHalf_even _ (by omega)] at hhigh
  rw [nibbleHalf_odd _ (by omega), nibbleHalf_odd _ (by omega)] at hlow
  rw [← byteOf_halves s[k], hhigh, hlow, byteOf_halves]

/-- The stream of an even count is the pack of its codes. -/
theorem pack_of_startsWithCodes_even {bytes : List Byte} {vs : List Code} (h : StartsWithCodes bytes vs)
    (hlen : bytes.length = streamBytes vs.length) (heven : vs.length % 2 = 0) : pack vs = bytes := by
  refine ext_nibbleAt ((length_pack vs).trans hlen.symm) fun j hj => ?_
  rw [length_pack, streamBytes] at hj
  have hj' : j < 3 * vs.length := by omega
  rw [nibbleAt_pack vs hj', h.nibbleAt_eq hj']

/-- The stream of an odd count whose pad is zero is the pack of its codes. -/
theorem pack_of_startsWithCodes_odd {front : List Byte} {hi : Nibble} {vs : List Code}
    (h : StartsWithCodes (front ++ [(hi ++ 0#4 : Byte)]) vs)
    (hlen : 2 * front.length + 1 = 3 * vs.length) : pack vs = front ++ [(hi ++ 0#4 : Byte)] := by
  have hbytes : 2 * streamBytes vs.length = 3 * vs.length + 1 := by unfold streamBytes; omega
  refine ext_nibbleAt ?_ fun j hj => ?_
  · rw [length_pack, List.length_append, List.length_singleton]
    omega
  · rw [length_pack] at hj
    by_cases hpad : j = 3 * vs.length
    · have hodd : j % 2 = 1 := by omega
      have hlast : j / 2 = front.length := by omega
      rw [nibbleAt_pack_eq_laneOf hj, laneOf, if_pos hpad, nibbleAt, nibbleByte, hlast]
      simp [nibbleHalf_odd _ hodd, ← byteOf_eq_append, byteOf_low]
    · have hj' : j < 3 * vs.length := by omega
      rw [nibbleAt_pack vs hj', h.nibbleAt_eq hj']

/-- Settles O44: the codes UNPACK returns hold every nibble of the stream but the pad, and pack has a
zero pad. -/
theorem packOfUnpack : Obligations.PackOfUnpack := by
  intro bytes n s t vs h
  obtain ⟨e, -, herr⟩ | ⟨vs', t', hc, rfl, hvs, hok⟩ := hostUnpack_cases bytes n s
  · cases herr.symm.trans h
  cases hok.symm.trans h
  have hlen : bytes.length = streamBytes vs.length := ((startCheck_eq_none_iff _ _).1 hc).2
  refine ⟨pack_of_startsWithCodes_even hvs hlen, fun hodd => ?_⟩
  unfold streamBytes at hlen
  obtain rfl | ⟨front, b, rfl⟩ := bytes.eq_nil_or_concat'
  · rw [List.length_nil] at hlen
    omega
  rw [List.length_append, List.length_singleton] at hlen
  have hb : b = b.extractLsb' 4 4 ++ b.extractLsb' 0 4 := by rw [← byteOf_eq_append, byteOf_halves]
  rw [hb] at hvs
  refine ⟨front, _, _, congrArg (front ++ [·]) hb, pack_of_startsWithCodes_odd (hvs.congr ?_) (by omega)⟩
  exact fun j hj => nibbleAt_append_pad front _ _ 0#4 (by omega)

end Sys2Proof.Machine
